-- ==== Sys2Proof/Word.lean ====
section
/-! DEFINITION. The widths of the block: a stream symbol is 8 bits (BYTE_W), a command and a length are 16 bits
(00_scope.md R7). All values are unsigned and every result is truncated to its register (R8). -/

namespace Sys2Proof

/-- One byte of a stream, of the payload buffer or of a checksum (R7, `BYTE_W`, `CRC_W`). -/
abbrev Byte := BitVec 8

/-- A 16-bit field: a command, a length, the payload counter (R7, `CMD_W_EXT`, `LEN_W_EXT`). -/
abbrev Half := BitVec 16

end Sys2Proof
end

