-- ==== Sys2Proof/Config.lean ====
section
/-! DEFINITION. What is fixed for the machine (00_scope.md R7): the capacity of the payload buffer and the longest payload
an encode request may carry. The spec leaves no result of any operation undefined, so there is no free value. -/

namespace Sys2Proof.Config

/-- `PAYLOAD_MAX`, the number of bytes of the decoder's payload buffer: indices 0 to 65534 (R17, R30, D9). -/
def payloadMax : Nat := 65535

/-- `ENC_PAYLOAD_MAX`, the longest payload of an encode request (R7, R121). -/
def encPayloadMax : Nat := 255

end Sys2Proof.Config
end

