-- ==== Sys2Proof/Machine/State.lean ====
section
/-! DEFINITION. The architectural state (10_state.md, 20_memory.md R30), as plain data, and its value after reset (R27, R158). -/

namespace Sys2Proof.Machine

/-- `st`, the decoder's position register, the block's program counter (R11). -/
inductive Pos where
  | idle | awaitFormat | awaitDirection | readLen | readCmd | readData | readCrc
  | extAwaitDirection | extFlags | extIdLo | extIdHi | extLenLo | extLenHi | extData | extChecksum
  deriving DecidableEq, Repr

/-- `enc_st`, the serialiser position of the byte-serial encoder; the name says which byte is emitted next (R22). -/
inductive EncPos where
  | encIdle | encSync | encFmt | encDir | encLen | encCmd | encData | encCsum
  deriving DecidableEq, Repr

/-- The payload buffer: (index, byte) pairs, strictly rising, only what has been written. An index that is not listed has
no value (R27: unspecified at power-up; log entry 5). -/
abbrev Memory := List Host.Cell

/-- The Decoder State of R10, owned by the agent DEC. -/
structure DecState where
  /-- `st`, R11. -/
  st : Pos
  /-- `is_response`, R12. -/
  isResponse : Bool
  /-- `command`, R13. -/
  command : Half
  /-- `len`, R14. -/
  len : Half
  /-- `counter`, R15. -/
  counter : Half
  /-- `csum`, R16. -/
  csum : Byte
  /-- `payload`, R17. -/
  payload : Memory
  deriving DecidableEq, Repr

/-- The registers of the byte-serial encoder (R22) and the payload argument of the request being serialised (space
`ENC_PAYLOAD` of R30), owned by the agent ENC. -/
structure EncState where
  /-- `enc_st`. -/
  st : EncPos
  /-- `enc_cmd`. -/
  cmd : Byte
  /-- `enc_len`. -/
  len : Byte
  /-- `enc_idx`. -/
  idx : Byte
  /-- `enc_csum`. -/
  csum : Byte
  /-- `ENC_PAYLOAD`. -/
  payload : List Byte
  deriving DecidableEq, Repr

/-- What a `DEC.STEP` hands to the host (R20): a message by value, or a diagnostic. -/
inductive DecOutput where
  /-- `Msg(is_response, command, payload)`, R145. -/
  | msg (isResponse : Bool) (command : Half) (payload : List Byte)
  /-- The diagnostic `ChecksumMismatch(command)`, R138, D11. -/
  | checksumMismatch (command : Half)
  deriving DecidableEq, Repr

/-- The events of R136. -/
inductive Event where
  | noEvent
  | desync
  | checksumMismatch (command : Half)
  | encodeOversize
  deriving DecidableEq, Repr

/-- A word of an operation as the host presents it, at the interface R54 calls its format. Only a byte and a whole frame
have bits; the others are distinct operations with operands (R59). -/
inductive Request where
  /-- Format `DEC_BYTE`: one input byte to DEC. -/
  | decByte (b : Byte)
  /-- Format `FUNC`: the three function calls. -/
  | xor8Update (acc b : Byte)
  | crc8Bit (c : Byte)
  | crc8Update (crc b : Byte)
  /-- Format `ENGINE`: the four engine operations. -/
  | xor8Init
  | xor8Step (b : Byte)
  | crc8Init
  | crc8Step (b : Byte)
  /-- Format `HOST_OP`: the five operations the host selects. -/
  | decStep (b : Byte)
  | decFeed (bytes : List Byte)
  | decReset
  | encReset
  | encLegacy (cmd : Byte) (payload : List Byte)
  /-- Format `FRAME_RX`: the bytes of a whole frame for DEC. -/
  | frameRx (bytes : List Byte)
  /-- Format `FRAME_TX`: the bytes of a whole frame ENC is to produce. -/
  | frameTx (bytes : List Byte)
  deriving DecidableEq, Repr

/-- One thing the host presents to the block (R173; log entries 1, 9, 10, 16). -/
inductive Stimulus where
  /-- An operation of the table. -/
  | op (r : Request)
  /-- Reset of both agents (`rst`, R60), with the byte presented together with it, if any (R142). -/
  | rst (coincident : Option Byte)
  /-- A request to the byte-serial encoder (R126, row `ENC_IDLE`). -/
  | encStart (cmd : Byte) (payload : List Byte)
  /-- One step of the serialiser (R126). -/
  | encTick
  deriving DecidableEq, Repr

/-- Why the decode map has no instruction for a whole-frame word. -/
inductive DecodeError where
  /-- Byte 0 is not `$` (R46 to R48). -/
  | badSync
  /-- Byte 1 is not the layout's format marker. -/
  | badFormat
  /-- Byte 2 of a transmit layout is not `<` (R48). -/
  | badDirection
  /-- Fewer bytes than the length field asks for (R49). -/
  | truncated
  /-- More bytes than the length field asks for (R49). -/
  | trailing
  /-- The last byte of a transmit layout is not the checksum (R48). -/
  | badChecksum
  deriving DecidableEq, Repr

/-- Why the machine stops with a fault. No state a run reaches meets one (R154; Safety.lean). -/
inductive Fault where
  /-- Raised by MemRead at an index nothing has written (R31: a model may make such a read a fault). Safe. -/
  | payloadUnwritten
  /-- Raised by MemRead and MemWrite at an index above 65534 (R17, R32). Safe. -/
  | payloadOutOfRange
  /-- Raised by a serialiser step whose `enc_idx` is beyond ENC_PAYLOAD (R126). Safe. -/
  | encPayloadOutOfRange
  deriving DecidableEq, Repr

/-- Why an operation is not performed. -/
inductive Refusal where
  /-- Raised by exec for an instruction with no meaning yet (none is left). Safe. -/
  | notModelled (mnemonic : String)
  /-- Raised by an encode request with more than 255 payload bytes: `refuse`, no output, no change (R124, R139). Safe. -/
  | encodeOversize
  /-- Raised by a DEC_BYTE row run where the decode map selects another row (R53). No step raises it. Safe. -/
  | rowNotSelected
  /-- Raised by a step whose whole-frame word has no layout of R46 to R48. Safe. -/
  | undecodable (why : DecodeError)
  deriving DecidableEq, Repr

/-- The whole machine: the two agents, the two standalone accumulators (R24), what the host has been given and what it has
presented. -/
structure State where
  /-- Agent DEC (R10). -/
  dec : DecState
  /-- Agent ENC (R22, R30). -/
  enc : EncState
  /-- `XOR8.acc`, R24. -/
  xorAcc : Byte
  /-- `CRC8.acc`, R24. -/
  crcAcc : Byte
  /-- The decoder's outputs so far, in step order (R20, R39; log entry 3). -/
  decOut : List DecOutput
  /-- The encoder's output stream `OUT` so far (R23, R30; log entry 3). -/
  encOut : List Byte
  /-- The results of function calls so far, in call order (R65; log entry 3). -/
  results : List Byte
  /-- What the host has presented and the block has not served, oldest first (spaces IN and ENC_PAYLOAD of R30, R173; log
  entry 1). -/
  pending : List Stimulus
  deriving DecidableEq, Repr

/-- The Decoder State after reset (R27). -/
def DecState.reset : DecState :=
  { st := .idle, isResponse := false, command := 0#16, len := 0#16, counter := 0#16, csum := 0#8, payload := [] }

/-- The encoder's registers after reset (R27); ENC_PAYLOAD is empty (log entry 4). -/
def EncState.reset : EncState :=
  { st := .encIdle, cmd := 0#8, len := 0#8, idx := 0#8, csum := 0#8, payload := [] }

/-- The machine after power-up (R27, R158): no output is pending and nothing has been presented. -/
def State.reset : State :=
  { dec := DecState.reset, enc := EncState.reset, xorAcc := 0#8, crcAcc := 0#8,
    decOut := [], encOut := [], results := [], pending := [] }

end Sys2Proof.Machine
end

