-- ==== Sys2Proof/Machine/Markers.lean ====
section
/-! DEFINITION. The constant bytes of the wire formats and the command constants (00_scope.md R7, 30_encoding.md R50). -/

namespace Sys2Proof.Machine

/-- `SYNC`, the character `$` (R50). -/
def markSync : Byte := 0x24#8
/-- `FMT_LEGACY`, the character `M` (R50). -/
def markLegacy : Byte := 0x4D#8
/-- `FMT_EXT`, the character `X` (R50). PRESUMED: the ASCII code (G1, log entry 14). -/
def markExt : Byte := 0x58#8
/-- `DIR_REQ_DEC`, the character `!` (R50). PRESUMED: the ASCII code (G1, log entry 14). -/
def markReq : Byte := 0x21#8
/-- `DIR_RSP`, the character `>` (R50). PRESUMED: the ASCII code (G1, log entry 14). -/
def markRsp : Byte := 0x3E#8
/-- `DIR_ENC`, the character `<`, written by the encoder and not accepted by the decoder (R50, C3). -/
def markEnc : Byte := 0x3C#8

/-- `CMD_VARIANT` (R7, R129). -/
def cmdVariant : Byte := 0x02#8
/-- `CMD_VERSION` (R7, R129). -/
def cmdVersion : Byte := 0x03#8
/-- `CMD_REBOOT` (R7, R129). -/
def cmdReboot : Byte := 0x44#8

end Sys2Proof.Machine
end

