-- ==== Sys2Proof/Machine/Operands.lean ====
section
/-! DEFINITION. Operand forms: how a field is put together from bytes (30_encoding.md R51) and how a frame is laid out in
bytes (R46, R47, R48). -/

namespace Sys2Proof.Machine

/-- `zext_16(b)`, R9. -/
def zext16 (b : Byte) : Half := b.setWidth 16

/-- `hi ‖ lo`, a 16-bit field from its two wire bytes, little-endian (R33, R51). -/
def assemble (hi lo : Byte) : Half := hi ++ lo

/-- `v[7:0]`, where the decoder keeps DOC's `command_lo` and `len_lo` (R13, R14, D4). -/
def lowByte (v : Half) : Byte := v.setWidth 8

/-- The length byte of a legacy frame, `len(payload) as u8` (R48, R51). -/
def lengthByte (payload : List Byte) : Byte := BitVec.ofNat 8 payload.length

/-- The bytes of `LEGACY_RX` (R46): direction `d`, length `n`, command `c`, payload, checksum `k`. -/
def legacyRxBytes (d n c : Byte) (payload : List Byte) (k : Byte) : List Byte :=
  markSync :: markLegacy :: d :: n :: c :: (payload ++ [k])

/-- The bytes of `EXT_RX` (R47): direction, flags, command low and high, length low and high, payload, CRC. -/
def extRxBytes (d f cl ch nl nh : Byte) (payload : List Byte) (k : Byte) : List Byte :=
  markSync :: markExt :: d :: f :: cl :: ch :: nl :: nh :: (payload ++ [k])

/-- The bytes of `LEGACY_TX` (R48, R121, R123): what the encoder outputs for a command and a payload. -/
def legacyTxBytes (c : Byte) (payload : List Byte) : List Byte :=
  markSync :: markLegacy :: markEnc :: lengthByte payload :: c ::
    (payload ++ [legacyChecksum (lengthByte payload) c payload])

end Sys2Proof.Machine
end

