-- ==== Sys2Proof/Syntax.lean ====
section
/-! DEFINITION. The operations of the block: one constructor per row of spec/opcode_table.json (42 rows). A row whose
pattern leaves the byte open carries that byte; a row with one exact byte carries none. -/

namespace Sys2Proof

/-- The operations of 00_scope.md R2 and the frame layouts of 30_encoding.md R45, as spec/opcode_table.json lists them. -/
inductive Instr where
  /-- IDLE.SYNC, R82: the byte `$` in `IDLE`. -/
  | idleSync
  /-- IDLE.SKIP, R83: any other byte in `IDLE`. -/
  | idleSkip (b : Byte)
  /-- FMT.LEGACY, R84: the byte `M` in `AWAIT_FORMAT`. -/
  | fmtLegacy
  /-- FMT.EXT, R85: the byte `X` in `AWAIT_FORMAT`. -/
  | fmtExt
  /-- FMT.DESYNC, R88: any other byte in `AWAIT_FORMAT`. -/
  | fmtDesync (b : Byte)
  /-- DIR.REQ, R86: the byte `!` in `AWAIT_DIRECTION`. -/
  | dirReq
  /-- DIR.RSP, R87: the byte `>` in `AWAIT_DIRECTION`. -/
  | dirRsp
  /-- DIR.DESYNC, R89: any other byte in `AWAIT_DIRECTION`. -/
  | dirDesync (b : Byte)
  /-- LEN, R90: the length byte. -/
  | len (b : Byte)
  /-- CMD, R91: the command byte. -/
  | cmd (b : Byte)
  /-- DATA, R92: a payload byte. -/
  | data (b : Byte)
  /-- CRC.OK, R93: the checksum byte, equal to `csum`. -/
  | crcOk (b : Byte)
  /-- CRC.BAD, R94: the checksum byte, different from `csum`. -/
  | crcBad (b : Byte)
  /-- XDIR.REQ, R100: the byte `!` in `EXT_AWAIT_DIRECTION`. -/
  | xdirReq
  /-- XDIR.RSP, R101: the byte `>` in `EXT_AWAIT_DIRECTION`. -/
  | xdirRsp
  /-- XDIR.DESYNC, R102: any other byte in `EXT_AWAIT_DIRECTION`. -/
  | xdirDesync (b : Byte)
  /-- XFLAGS, R103: the flags byte. -/
  | xflags (b : Byte)
  /-- XID.LO, R104: the low byte of the command. -/
  | xidLo (b : Byte)
  /-- XID.HI, R105: the high byte of the command. -/
  | xidHi (b : Byte)
  /-- XLEN.LO, R106: the low byte of the length. -/
  | xlenLo (b : Byte)
  /-- XLEN.HI, R107: the high byte of the length. -/
  | xlenHi (b : Byte)
  /-- XDATA, R108: a payload byte. -/
  | xdata (b : Byte)
  /-- XCRC.OK, R109: the CRC byte, equal to `csum`. -/
  | xcrcOk (b : Byte)
  /-- XCRC.BAD, R110: the CRC byte, different from `csum`. -/
  | xcrcBad (b : Byte)
  /-- XOR8.UPDATE acc, b, R66. -/
  | xor8Update (acc b : Byte)
  /-- CRC8.BIT c, R68. -/
  | crc8Bit (c : Byte)
  /-- CRC8.UPDATE crc, b, R69. -/
  | crc8Update (crc b : Byte)
  /-- XOR8.INIT, R74. -/
  | xor8Init
  /-- XOR8.STEP b, R74. -/
  | xor8Step (b : Byte)
  /-- CRC8.INIT, R75. -/
  | crc8Init
  /-- CRC8.STEP b, R75. -/
  | crc8Step (b : Byte)
  /-- DEC.STEP b, R80. -/
  | decStep (b : Byte)
  /-- DEC.FEED bytes, R81. -/
  | decFeed (bytes : List Byte)
  /-- DEC.RESET, R156. -/
  | decReset
  /-- ENC.RESET, R157. -/
  | encReset
  /-- ENC.LEGACY cmd, payload, R121. -/
  | encLegacy (cmd : Byte) (payload : List Byte)
  /-- FRAME.LEGACY_RX, R46: direction `d`, length `n`, command `c`, payload, checksum `k`. -/
  | frameLegacyRx (d n c : Byte) (payload : List Byte) (k : Byte)
  /-- FRAME.EXT_RX, R47: direction `d`, flags `f`, command bytes, length bytes, payload, CRC byte `k`. -/
  | frameExtRx (d f cl ch nl nh : Byte) (payload : List Byte) (k : Byte)
  /-- FRAME.LEGACY_TX, R48: the length and checksum bytes follow from the command and the payload. -/
  | frameLegacyTx (cmd : Byte) (payload : List Byte)
  /-- VARIANT, R129. -/
  | variant
  /-- VERSION, R129. -/
  | version
  /-- REBOOT, R129. -/
  | reboot
  deriving DecidableEq, Repr

end Sys2Proof
end

