-- ==== Sys2Proof/WellFormed.lean ====
section
/-! DEFINITION. Which terms of Instr stand for a row of spec/opcode_table.json: the catch-all rows exclude the bytes their
state's exact rows take (30_encoding.md R53, R54), and a frame has as many payload bytes as its length field says (R46 to
R49). A term that fails a check is not what any word of its row decodes to. -/

namespace Sys2Proof

/-- The checks on an instruction's operands. The direction and checksum bytes of a received frame are unconstrained here:
every value has a meaning (R55, R97). -/
def Instr.wf : Instr → Bool
  | .idleSkip b => b != Machine.markSync
  | .fmtDesync b => b != Machine.markLegacy && b != Machine.markExt
  | .dirDesync b => b != Machine.markReq && b != Machine.markRsp
  | .xdirDesync b => b != Machine.markReq && b != Machine.markRsp
  | .encLegacy _ payload => decide (payload.length ≤ Config.encPayloadMax)
  | .frameLegacyRx _ n _ payload _ => payload.length == n.toNat
  | .frameExtRx _ _ _ _ nl nh payload _ => payload.length == (Machine.assemble nh nl).toNat
  | .frameLegacyTx c payload =>
    decide (payload.length ≤ Config.encPayloadMax) &&
      !(payload.isEmpty && (c == Machine.cmdVariant || c == Machine.cmdVersion || c == Machine.cmdReboot))
  | .idleSync | .fmtLegacy | .fmtExt | .dirReq | .dirRsp | .len _ | .cmd _ | .data _ | .crcOk _ | .crcBad _
  | .xdirReq | .xdirRsp | .xflags _ | .xidLo _ | .xidHi _ | .xlenLo _ | .xlenHi _ | .xdata _ | .xcrcOk _ | .xcrcBad _
  | .xor8Update _ _ | .crc8Bit _ | .crc8Update _ _ | .xor8Init | .xor8Step _ | .crc8Init | .crc8Step _
  | .decStep _ | .decFeed _ | .decReset | .encReset | .variant | .version | .reboot => true

end Sys2Proof
end

