-- ==== Sys2Proof/Decode.lean ====
section
/-! DEFINITION. The decode map (30_encoding.md R53), its table form (R54), the decoder of a presented word, total and
rejecting by name, and the encoder. -/

namespace Sys2Proof

open Machine

/-- The 24 rows of format `DEC_BYTE`, without their byte. -/
inductive DecRow where
  | idleSync | idleSkip | fmtLegacy | fmtExt | fmtDesync
  | dirReq | dirRsp | dirDesync | len | cmd | data | crcOk | crcBad
  | xdirReq | xdirRsp | xdirDesync | xflags | xidLo | xidHi | xlenLo | xlenHi | xdata | xcrcOk | xcrcBad
  deriving DecidableEq, Repr

/-- The decode map of R53: the pair (`st`, `b`) selects exactly one row; the checksum states compare `b` with `csum`. -/
def selectRow (st : Pos) (csum b : Byte) : DecRow :=
  match st with
  | .idle => if b = markSync then .idleSync else .idleSkip
  | .awaitFormat => if b = markLegacy then .fmtLegacy else if b = markExt then .fmtExt else .fmtDesync
  | .awaitDirection => if b = markReq then .dirReq else if b = markRsp then .dirRsp else .dirDesync
  | .readLen => .len
  | .readCmd => .cmd
  | .readData => .data
  | .readCrc => if b = csum then .crcOk else .crcBad
  | .extAwaitDirection => if b = markReq then .xdirReq else if b = markRsp then .xdirRsp else .xdirDesync
  | .extFlags => .xflags
  | .extIdLo => .xidLo
  | .extIdHi => .xidHi
  | .extLenLo => .xlenLo
  | .extLenHi => .xlenHi
  | .extData => .xdata
  | .extChecksum => if b = csum then .xcrcOk else .xcrcBad

/-- The instruction of a row for the byte that selected it. -/
def DecRow.instr (r : DecRow) (b : Byte) : Instr :=
  match r with
  | .idleSync => .idleSync
  | .idleSkip => .idleSkip b
  | .fmtLegacy => .fmtLegacy
  | .fmtExt => .fmtExt
  | .fmtDesync => .fmtDesync b
  | .dirReq => .dirReq
  | .dirRsp => .dirRsp
  | .dirDesync => .dirDesync b
  | .len => .len b
  | .cmd => .cmd b
  | .data => .data b
  | .crcOk => .crcOk b
  | .crcBad => .crcBad b
  | .xdirReq => .xdirReq
  | .xdirRsp => .xdirRsp
  | .xdirDesync => .xdirDesync b
  | .xflags => .xflags b
  | .xidLo => .xidLo b
  | .xidHi => .xidHi b
  | .xlenLo => .xlenLo b
  | .xlenHi => .xlenHi b
  | .xdata => .xdata b
  | .xcrcOk => .xcrcOk b
  | .xcrcBad => .xcrcBad b

/-- `state_number`, the 4-bit numbering of `st` (R11, D18); 15 is no position. -/
def Machine.Pos.code : Pos → BitVec 4
  | .idle => 0#4
  | .awaitFormat => 1#4
  | .awaitDirection => 2#4
  | .readLen => 3#4
  | .readCmd => 4#4
  | .readData => 5#4
  | .readCrc => 6#4
  | .extAwaitDirection => 7#4
  | .extFlags => 8#4
  | .extIdLo => 9#4
  | .extIdHi => 10#4
  | .extLenLo => 11#4
  | .extLenHi => 12#4
  | .extData => 13#4
  | .extChecksum => 14#4

/-- The `condition` of a table row (R54). -/
inductive RowCondition where
  | always
  | equalsCsum
  | differsFromCsum
  deriving DecidableEq, Repr

/-- One `DEC_BYTE` row of spec/opcode_table.json: state_number, match, mask, priority, condition (R54). -/
structure TableRow where
  row : DecRow
  stateNumber : BitVec 4
  pattern : Byte
  mask : Byte
  priority : Nat
  condition : RowCondition
  deriving DecidableEq, Repr

/-- The rows of the shared states, letter for letter from spec/opcode_table.json. -/
def tableShared : List TableRow :=
  [⟨.idleSync, 0, 0x24, 0xFF, 0, .always⟩, ⟨.idleSkip, 0, 0x00, 0x00, 1, .always⟩,
   ⟨.fmtLegacy, 1, 0x4D, 0xFF, 0, .always⟩, ⟨.fmtExt, 1, 0x58, 0xFF, 0, .always⟩,
   ⟨.fmtDesync, 1, 0x00, 0x00, 1, .always⟩]

/-- The rows of the legacy branch. -/
def tableLegacy : List TableRow :=
  [⟨.dirReq, 2, 0x21, 0xFF, 0, .always⟩, ⟨.dirRsp, 2, 0x3E, 0xFF, 0, .always⟩,
   ⟨.dirDesync, 2, 0x00, 0x00, 1, .always⟩, ⟨.len, 3, 0x00, 0x00, 0, .always⟩,
   ⟨.cmd, 4, 0x00, 0x00, 0, .always⟩, ⟨.data, 5, 0x00, 0x00, 0, .always⟩,
   ⟨.crcOk, 6, 0x00, 0x00, 0, .equalsCsum⟩, ⟨.crcBad, 6, 0x00, 0x00, 0, .differsFromCsum⟩]

/-- The rows of the extended branch. -/
def tableExtended : List TableRow :=
  [⟨.xdirReq, 7, 0x21, 0xFF, 0, .always⟩, ⟨.xdirRsp, 7, 0x3E, 0xFF, 0, .always⟩,
   ⟨.xdirDesync, 7, 0x00, 0x00, 1, .always⟩, ⟨.xflags, 8, 0x00, 0x00, 0, .always⟩,
   ⟨.xidLo, 9, 0x00, 0x00, 0, .always⟩, ⟨.xidHi, 10, 0x00, 0x00, 0, .always⟩,
   ⟨.xlenLo, 11, 0x00, 0x00, 0, .always⟩, ⟨.xlenHi, 12, 0x00, 0x00, 0, .always⟩,
   ⟨.xdata, 13, 0x00, 0x00, 0, .always⟩,
   ⟨.xcrcOk, 14, 0x00, 0x00, 0, .equalsCsum⟩, ⟨.xcrcBad, 14, 0x00, 0x00, 0, .differsFromCsum⟩]

/-- The 24 `DEC_BYTE` rows. -/
def decodeTable : List TableRow := tableShared ++ tableLegacy ++ tableExtended

/-- The `condition` holds of this byte. -/
def RowCondition.holds (c : RowCondition) (csum b : Byte) : Bool :=
  match c with
  | .always => true
  | .equalsCsum => b == csum
  | .differsFromCsum => b != csum

/-- A row applies (R54, second and third step): its state is `st`, `(b & mask) == match`, and its condition holds. -/
def TableRow.applies (t : TableRow) (st : Pos) (csum b : Byte) : Bool :=
  t.stateNumber == st.code && (b &&& t.mask) == t.pattern && t.condition.holds csum b

/-- The row the table selects (R54): among those that apply, one with the lowest priority number. -/
def tableSelect (st : Pos) (csum b : Byte) : Option DecRow :=
  ((decodeTable.find? fun t => t.priority == 0 && t.applies st csum b).or
    (decodeTable.find? fun t => t.priority == 1 && t.applies st csum b)).map TableRow.row

/-- The formats of R54: the interface at which an operation's word arrives. -/
inductive Format where
  | decByte | func | engine | hostOp | frameRx | frameTx
  deriving DecidableEq, Repr

/-- The format of a presented word. -/
def Machine.Request.format : Request → Format
  | .decByte _ => .decByte
  | .xor8Update _ _ | .crc8Bit _ | .crc8Update _ _ => .func
  | .xor8Init | .xor8Step _ | .crc8Init | .crc8Step _ => .engine
  | .decStep _ | .decFeed _ | .decReset | .encReset | .encLegacy _ _ => .hostOp
  | .frameRx _ => .frameRx
  | .frameTx _ => .frameTx

/-- The format of a row, as spec/opcode_table.json gives it. -/
def Instr.format : Instr → Format
  | .idleSync | .idleSkip _ | .fmtLegacy | .fmtExt | .fmtDesync _ | .dirReq | .dirRsp | .dirDesync _
  | .len _ | .cmd _ | .data _ | .crcOk _ | .crcBad _ | .xdirReq | .xdirRsp | .xdirDesync _ | .xflags _
  | .xidLo _ | .xidHi _ | .xlenLo _ | .xlenHi _ | .xdata _ | .xcrcOk _ | .xcrcBad _ => .decByte
  | .xor8Update _ _ | .crc8Bit _ | .crc8Update _ _ => .func
  | .xor8Init | .xor8Step _ | .crc8Init | .crc8Step _ => .engine
  | .decStep _ | .decFeed _ | .decReset | .encReset | .encLegacy _ _ => .hostOp
  | .frameLegacyRx _ _ _ _ _ | .frameExtRx _ _ _ _ _ _ _ _ => .frameRx
  | .frameLegacyTx _ _ | .variant | .version | .reboot => .frameTx

/-- The payload and the checksum byte that follow a header whose length field is `n` (R49). -/
def splitTail (n : Nat) (tail : List Byte) : Except DecodeError (List Byte × Byte) :=
  match tail.drop n with
  | [] => .error .truncated
  | [k] => .ok (tail.take n, k)
  | _ :: _ :: _ => .error .trailing

/-- `LEGACY_RX` after the two markers (R46). -/
def decodeLegacyRx : List Byte → Except DecodeError Instr
  | d :: n :: c :: tail =>
    match splitTail n.toNat tail with
    | .ok (payload, k) => .ok (.frameLegacyRx d n c payload k)
    | .error e => .error e
  | _ => .error .truncated

/-- `EXT_RX` after the two markers (R47). -/
def decodeExtRx : List Byte → Except DecodeError Instr
  | d :: f :: cl :: ch :: nl :: nh :: tail =>
    match splitTail (assemble nh nl).toNat tail with
    | .ok (payload, k) => .ok (.frameExtRx d f cl ch nl nh payload k)
    | .error e => .error e
  | _ => .error .truncated

/-- A word of format `FRAME_RX`: the table's match and mask fix the two markers, the length field fixes the length. -/
def decodeFrameRx : List Byte → Except DecodeError Instr
  | s :: m :: rest =>
    if s = markSync then
      if m = markLegacy then decodeLegacyRx rest
      else if m = markExt then decodeExtRx rest
      else .error .badFormat
    else .error .badSync
  | _ => .error .truncated

/-- The `FRAME_TX` row of a command and a payload: the rows of the three pseudo-operations fix all six bytes, so they take
their own words before `FRAME.LEGACY_TX` does (log entry 12). -/
def frameTxRow (c : Byte) (payload : List Byte) : Instr :=
  if payload.isEmpty then
    if c = cmdVariant then .variant
    else if c = cmdVersion then .version
    else if c = cmdReboot then .reboot
    else .frameLegacyTx c payload
  else .frameLegacyTx c payload

/-- A word of format `FRAME_TX` (R48): the checksum byte is fixed by the others. -/
def decodeFrameTx : List Byte → Except DecodeError Instr
  | s :: m :: d :: n :: c :: tail =>
    if s = markSync then
      if m = markLegacy then
        if d = markEnc then
          match splitTail n.toNat tail with
          | .ok (payload, k) =>
            if k = legacyChecksum n c payload then .ok (frameTxRow c payload) else .error .badChecksum
          | .error e => .error e
        else .error .badDirection
      else .error .badFormat
    else .error .badSync
  | _ => .error .truncated

/-- The instruction of a presented word, in the position `st` with the running checksum `csum` (R54): first by format, then
by position, then by the bytes. Total; only whole-frame words can be rejected. -/
def decode (st : Pos) (csum : Byte) : Request → Except DecodeError Instr
  | .decByte b => .ok ((selectRow st csum b).instr b)
  | .xor8Update acc b => .ok (.xor8Update acc b)
  | .crc8Bit c => .ok (.crc8Bit c)
  | .crc8Update crc b => .ok (.crc8Update crc b)
  | .xor8Init => .ok .xor8Init
  | .xor8Step b => .ok (.xor8Step b)
  | .crc8Init => .ok .crc8Init
  | .crc8Step b => .ok (.crc8Step b)
  | .decStep b => .ok (.decStep b)
  | .decFeed bytes => .ok (.decFeed bytes)
  | .decReset => .ok .decReset
  | .encReset => .ok .encReset
  | .encLegacy c payload => .ok (.encLegacy c payload)
  | .frameRx bytes => decodeFrameRx bytes
  | .frameTx bytes => decodeFrameTx bytes

/-- The word of an instruction, at the interface of its format (R46 to R48, R50, R53, R59). -/
def encode : Instr → Request
  | .idleSync => .decByte markSync
  | .fmtLegacy => .decByte markLegacy
  | .fmtExt => .decByte markExt
  | .dirReq | .xdirReq => .decByte markReq
  | .dirRsp | .xdirRsp => .decByte markRsp
  | .idleSkip b | .fmtDesync b | .dirDesync b | .len b | .cmd b | .data b | .crcOk b | .crcBad b
  | .xdirDesync b | .xflags b | .xidLo b | .xidHi b | .xlenLo b | .xlenHi b | .xdata b | .xcrcOk b | .xcrcBad b =>
    .decByte b
  | .xor8Update acc b => .xor8Update acc b
  | .crc8Bit c => .crc8Bit c
  | .crc8Update crc b => .crc8Update crc b
  | .xor8Init => .xor8Init
  | .xor8Step b => .xor8Step b
  | .crc8Init => .crc8Init
  | .crc8Step b => .crc8Step b
  | .decStep b => .decStep b
  | .decFeed bytes => .decFeed bytes
  | .decReset => .decReset
  | .encReset => .encReset
  | .encLegacy c payload => .encLegacy c payload
  | .frameLegacyRx d n c payload k => .frameRx (legacyRxBytes d n c payload k)
  | .frameExtRx d f cl ch nl nh payload k => .frameRx (extRxBytes d f cl ch nl nh payload k)
  | .frameLegacyTx c payload => .frameTx (legacyTxBytes c payload)
  | .variant => .frameTx (legacyTxBytes cmdVariant [])
  | .version => .frameTx (legacyTxBytes cmdVersion [])
  | .reboot => .frameTx (legacyTxBytes cmdReboot [])

/-- The row of a `DEC_BYTE` instruction; none for the operations that are not bytes. -/
def Instr.row? : Instr → Option DecRow
  | .idleSync => some .idleSync
  | .idleSkip _ => some .idleSkip
  | .fmtLegacy => some .fmtLegacy
  | .fmtExt => some .fmtExt
  | .fmtDesync _ => some .fmtDesync
  | .dirReq => some .dirReq
  | .dirRsp => some .dirRsp
  | .dirDesync _ => some .dirDesync
  | .len _ => some .len
  | .cmd _ => some .cmd
  | .data _ => some .data
  | .crcOk _ => some .crcOk
  | .crcBad _ => some .crcBad
  | .xdirReq => some .xdirReq
  | .xdirRsp => some .xdirRsp
  | .xdirDesync _ => some .xdirDesync
  | .xflags _ => some .xflags
  | .xidLo _ => some .xidLo
  | .xidHi _ => some .xidHi
  | .xlenLo _ => some .xlenLo
  | .xlenHi _ => some .xlenHi
  | .xdata _ => some .xdata
  | .xcrcOk _ => some .xcrcOk
  | .xcrcBad _ => some .xcrcBad
  | .xor8Update _ _ | .crc8Bit _ | .crc8Update _ _ | .xor8Init | .xor8Step _ | .crc8Init | .crc8Step _
  | .decStep _ | .decFeed _ | .decReset | .encReset | .encLegacy _ _
  | .frameLegacyRx _ _ _ _ _ | .frameExtRx _ _ _ _ _ _ _ _ | .frameLegacyTx _ _
  | .variant | .version | .reboot => none

/-- The position and condition column of R53's map: where a `DEC_BYTE` row is looked for, and what its checksum condition
asks of the byte. True of every operation that is not a byte. -/
def Instr.context (i : Instr) (st : Pos) (csum : Byte) : Bool :=
  match i with
  | .idleSync | .idleSkip _ => st == .idle
  | .fmtLegacy | .fmtExt | .fmtDesync _ => st == .awaitFormat
  | .dirReq | .dirRsp | .dirDesync _ => st == .awaitDirection
  | .len _ => st == .readLen
  | .cmd _ => st == .readCmd
  | .data _ => st == .readData
  | .crcOk b => st == .readCrc && b == csum
  | .crcBad b => st == .readCrc && b != csum
  | .xdirReq | .xdirRsp | .xdirDesync _ => st == .extAwaitDirection
  | .xflags _ => st == .extFlags
  | .xidLo _ => st == .extIdLo
  | .xidHi _ => st == .extIdHi
  | .xlenLo _ => st == .extLenLo
  | .xlenHi _ => st == .extLenHi
  | .xdata _ => st == .extData
  | .xcrcOk b => st == .extChecksum && b == csum
  | .xcrcBad b => st == .extChecksum && b != csum
  | .xor8Update _ _ | .crc8Bit _ | .crc8Update _ _ | .xor8Init | .xor8Step _ | .crc8Init | .crc8Step _
  | .decStep _ | .decFeed _ | .decReset | .encReset | .encLegacy _ _
  | .frameLegacyRx _ _ _ _ _ | .frameExtRx _ _ _ _ _ _ _ _ | .frameLegacyTx _ _
  | .variant | .version | .reboot => true

/-! ### The host's numbering of a row's word (log entry 2) -/

/-- The position in which a lone byte is taken: the first position of R11 with an exact row for it, else `IDLE`. -/
def bytePosition (b : Byte) : Pos :=
  if b = markLegacy then .awaitFormat
  else if b = markExt then .awaitFormat
  else if b = markReq then .awaitDirection
  else if b = markRsp then .awaitDirection
  else .idle

/-- The `n` bytes of a number, lowest digits first. -/
def lowFirstBytes : Nat → Nat → List Byte
  | 0, _ => []
  | n + 1, w => BitVec.ofNat 8 w :: lowFirstBytes n (w / 256)

/-- The whole length of a frame, from the header bytes it begins with (R49). -/
def frameLength : List Byte → Nat
  | _ :: m :: _ :: b3 :: _ :: rest =>
    if m = markExt then
      match rest with
      | _ :: nl :: nh :: _ => 9 + (assemble nh nl).toNat
      | _ => 9
    else 6 + b3.toNat
  | _ => 6

/-- The header of a received frame followed by zero bytes up to the frame's length (the host gives only the header's bits). -/
def padFrame (bytes : List Byte) : List Byte :=
  bytes ++ List.replicate (frameLength bytes - bytes.length) 0x00#8

/-- The header of a transmit frame followed by payload bytes of zero and by the checksum byte, which R48 computes from the
others and leaves no row to choose; a word that already has its checksum byte stands as it is. -/
def completeTransmit (bytes : List Byte) : List Byte :=
  match bytes with
  | s :: m :: d :: n :: c :: tail =>
    if tail.length ≤ n.toNat then
      let payload := tail ++ List.replicate (n.toNat - tail.length) 0x00#8
      s :: m :: d :: n :: c :: (payload ++ [legacyChecksum n c payload])
    else bytes
  | _ => bytes

/-- The word of a frame's header, at the transmit interface when it carries `<` and at the receive interface otherwise. -/
def frameRequest (bytes : List Byte) : Request :=
  if bytes[1]? = some markLegacy ∧ bytes[2]? = some markEnc then .frameTx (completeTransmit bytes)
  else .frameRx (padFrame bytes)

/-- The bytes of a number of `nbits` bits as R54 writes them: the first stream byte in the highest digits. -/
def wordBytes (nbits w : Nat) : List Byte := (lowFirstBytes (nbits / 8) w).reverse

/-- The request of a row's word: one byte is an input byte, several bytes are a frame. -/
def tableRequest (nbits w : Nat) : Request :=
  if nbits ≤ 8 then .decByte (BitVec.ofNat 8 w) else frameRequest (wordBytes nbits w)

/-- The position in which a row's word is fetched. -/
def tablePosition (nbits w : Nat) (st : Pos) : Pos :=
  if nbits ≤ 8 then bytePosition (BitVec.ofNat 8 w) else st

/-- The instruction the decoder reads from a row's word; a row with no bits has no word. -/
def decodeTableWord (nbits w : Nat) : Option Instr :=
  if nbits = 0 then none
  else
    match decode (tablePosition nbits w .idle) 0x00#8 (tableRequest nbits w) with
    | .ok i => some i
    | .error _ => none

end Sys2Proof
end

