-- ==== Sys2Proof/Machine/Flags.lean ====
section
/-! DEFINITION. The block has no condition-code register (10_state.md R20, R25). Its flag computations are the three tests a
step branches on, and the events of 60_exceptions.md R136 with what each shows the host. -/

namespace Sys2Proof.Machine

/-- `len == 0`, the test of R91 and R107. -/
def payloadEmpty (len : Half) : Bool := len == 0#16

/-- `counter == len`, the test of R92 and R108; both are 16-bit values and `counter` is the incremented one. -/
def payloadComplete (counter len : Half) : Bool := counter == len

/-- `enc_idx == enc_len`, the test of R126; both are 8-bit values and `enc_idx` is the incremented one. -/
def encComplete (idx len : Byte) : Bool := idx == len

/-- The event code of R136 (D17). -/
def Event.code : Event → Nat
  | .noEvent => 0
  | .desync => 1
  | .checksumMismatch _ => 2
  | .encodeOversize => 3

/-- What a decoder event shows the host (R136): `Desync` shows nothing, a mismatch is a diagnostic with the command. -/
def Event.output : Event → Option DecOutput
  | .checksumMismatch command => some (.checksumMismatch command)
  | .noEvent | .desync | .encodeOversize => none

/-- `enc_st`, its 3-bit numbering (R22, D13). -/
def EncPos.code : EncPos → BitVec 3
  | .encIdle => 0#3
  | .encSync => 1#3
  | .encFmt => 2#3
  | .encDir => 3#3
  | .encLen => 4#3
  | .encCmd => 5#3
  | .encData => 6#3
  | .encCsum => 7#3

end Sys2Proof.Machine
end

