-- ==== Sys2Proof/Machine/Ops.lean ====
section
/-! DEFINITION. The named operations: reads and writes of the payload buffer (20_memory.md R31, R32), taking an event
(60_exceptions.md R143), emitting a message (R145), starting a message (10_state.md R18), and how the result of a decoder
step enters the machine. There is no return from an event (R144). -/

namespace Sys2Proof.Machine

/-! ### The payload buffer -/

/-- The byte listed at an index; an index that is not listed has no value (R27, log entry 5). -/
def Memory.lookup : Memory → Nat → Option Byte
  | [], _ => none
  | (k, v) :: rest, a => if a = k then some v else Memory.lookup rest a

/-- The listing with the byte `v` at index `a`, kept strictly rising. -/
def Memory.insert : Memory → Nat → Byte → Memory
  | [], a, v => [(a, v)]
  | (k, u) :: rest, a, v =>
    if a < k then (a, v) :: (k, u) :: rest
    else if a = k then (a, v) :: rest
    else (k, u) :: Memory.insert rest a v

/-- Every index listed lies above `low`, and the indices rise strictly. -/
def Memory.risesFrom : Nat → Memory → Bool
  | _, [] => true
  | low, (k, _) :: rest => decide (low ≤ k) && Memory.risesFrom (k + 1) rest

/-- The canonical form: indices strictly rising and inside the buffer. An unlisted index reads as no value, so no entry can
equal what an unlisted index reads as. -/
def Memory.wf (m : Memory) : Bool :=
  Memory.risesFrom 0 m && m.all fun cell => decide (cell.1 < Config.payloadMax)

/-- `MemRead(PAYLOAD, a, 1)`, R31. -/
def memRead (m : Memory) (a : Nat) : Except Fault Byte :=
  if a < Config.payloadMax then
    match m.lookup a with
    | some v => .ok v
    | none => .error .payloadUnwritten
  else .error .payloadOutOfRange

/-- `MemWrite(PAYLOAD, a, 1, v)`, R32. -/
def memWrite (m : Memory) (a : Nat) (v : Byte) : Except Fault Memory :=
  if a < Config.payloadMax then .ok (m.insert a v) else .error .payloadOutOfRange

/-- `[MemRead(PAYLOAD, a, 1), …]`, `n` bytes from index `a` (R31). -/
def memReadList (m : Memory) (a : Nat) : Nat → Except Fault (List Byte)
  | 0 => .ok []
  | n + 1 =>
    match memRead m a with
    | .ok v =>
      match memReadList m (a + 1) n with
      | .ok rest => .ok (v :: rest)
      | .error f => .error f
    | .error f => .error f

/-! ### The decoder's shared operations -/

/-- What one decoder step answers: the new Decoder State and at most one output (R20). -/
abbrev DecResult := Except Fault (DecState × Option DecOutput)

/-- `st <- target`, and no output (R9). -/
def goto (target : Pos) (d : DecState) : DecResult := .ok ({ d with st := target }, none)

/-- "Start new message", R18: the five registers are cleared, the buffer is left as it is. -/
def startMessage (d : DecState) : DecState :=
  { d with isResponse := false, command := 0#16, len := 0#16, counter := 0#16, csum := 0#8 }

/-- Event entry, R143: `st <- IDLE` and nothing else changes; nothing is saved; the output is what the event shows (R136). -/
def takeEvent (e : Event) (d : DecState) : DecResult := .ok ({ d with st := .idle }, e.output)

/-- `emit Msg(is_response, command, payload[0 .. len-1])` and `st <- IDLE`, R145: the payload is handed over by value (D10). -/
def emitMessage (d : DecState) : DecResult :=
  match memReadList d.payload 0 d.len.toNat with
  | .ok p => .ok ({ d with st := .idle }, some (.msg d.isResponse d.command p))
  | .error f => .error f

/-- Storing a payload byte (R92, R108): the write uses `counter` before the increment, the test the incremented one.
`csum` is the new checksum, `stay` the data state and `leave` the checksum state. -/
def storePayload (b csum : Byte) (stay leave : Pos) (d : DecState) : DecResult :=
  match memWrite d.payload d.counter.toNat b with
  | .ok m =>
    let counter := d.counter + 1#16
    .ok ({ d with payload := m, csum := csum, counter := counter,
                  st := if payloadComplete counter d.len then leave else stay }, none)
  | .error f => .error f

/-- Where a frame goes once its length is known (R91, R107): `counter` is written only when there is a payload. -/
def beginPayload (data checksum : Pos) (d : DecState) : DecState :=
  if payloadEmpty d.len then { d with st := checksum } else { d with counter := 0#16, st := data }

/-- `DEC.RESET` on the Decoder State (R156): the payload buffer is not changed. -/
def decClear (d : DecState) : DecState :=
  { d with st := .idle, isResponse := false, command := 0#16, len := 0#16, counter := 0#16, csum := 0#8 }

/-- `ENC.RESET` on the encoder registers (R157). -/
def encClear (e : EncState) : EncState :=
  { e with st := .encIdle, cmd := 0#8, len := 0#8, idx := 0#8, csum := 0#8 }

/-! ### Into the machine -/

/-- The outcome of a decoder operation: the new Decoder State, its outputs after the earlier ones (R39). -/
def commitDec (s : State) : Except Fault (DecState × List DecOutput) → Host.Outcome State Fault Refusal
  | .ok (d, outs) => .next { s with dec := d, decOut := s.decOut ++ outs }
  | .error f => .fault f

/-- The outcome of one decoder step. -/
def commitStep (s : State) : DecResult → Host.Outcome State Fault Refusal
  | .ok (d, out) => commitDec s (.ok (d, out.toList))
  | .error f => .fault f

/-- A `DEC_BYTE` row run by itself: it applies exactly where the decode map selects it (R53, log entry 7). -/
def runRow (row : DecRow) (b : Byte) (effect : DecState → DecResult) (s : State) : Host.Outcome State Fault Refusal :=
  if selectRow s.dec.st s.dec.csum b = row then commitStep s (effect s.dec) else .refused .rowNotSelected

/-- The result of a function call goes to its caller (R65; log entry 3). -/
def returnResult (v : Byte) (s : State) : Host.Outcome State Fault Refusal :=
  .next { s with results := s.results ++ [v] }

end Sys2Proof.Machine
end

