-- ==== Sys2Proof/Machine/Extended.lean ====
section
/-! DEFINITION. The rows of the extended branch (42_decoder_extended.md): what each does to the Decoder State, and its
meaning as an instruction. -/

namespace Sys2Proof.Machine

/-- XDIR.REQ, R100. -/
def rowXdirReq (d : DecState) : DecResult := goto .extFlags { d with isResponse := false }
/-- XDIR.RSP, R101. -/
def rowXdirRsp (d : DecState) : DecResult := goto .extFlags { d with isResponse := true }
/-- XDIR.DESYNC, R102. -/
def rowXdirDesync (d : DecState) : DecResult := takeEvent .desync d
/-- XFLAGS, R103: the seed is the constant 0x00, and the flags byte is not stored (R56, C11). -/
def rowXflags (b : Byte) (d : DecState) : DecResult := goto .extIdLo { d with csum := crc8 crcSeed b }
/-- XID.LO, R104. -/
def rowXidLo (b : Byte) (d : DecState) : DecResult :=
  goto .extIdHi { d with csum := crc8 d.csum b, command := zext16 b }
/-- XID.HI, R105. -/
def rowXidHi (b : Byte) (d : DecState) : DecResult :=
  goto .extLenLo { d with csum := crc8 d.csum b, command := assemble b (lowByte d.command) }
/-- XLEN.LO, R106. -/
def rowXlenLo (b : Byte) (d : DecState) : DecResult :=
  goto .extLenHi { d with csum := crc8 d.csum b, len := zext16 b }
/-- XLEN.HI, R107: the test uses the new length. -/
def rowXlenHi (b : Byte) (d : DecState) : DecResult :=
  .ok (beginPayload .extData .extChecksum { d with csum := crc8 d.csum b, len := assemble b (lowByte d.len) }, none)
/-- XDATA, R108. -/
def rowXdata (b : Byte) (d : DecState) : DecResult := storePayload b (crc8 d.csum b) .extData .extChecksum d
/-- XCRC.OK, R109. -/
def rowXcrcOk (d : DecState) : DecResult := emitMessage d
/-- XCRC.BAD, R110. -/
def rowXcrcBad (d : DecState) : DecResult := takeEvent (.checksumMismatch d.command) d

/-- XDIR.REQ, R100. -/
def execXdirReq (s : State) : Host.Outcome State Fault Refusal := runRow .xdirReq markReq rowXdirReq s
/-- XDIR.RSP, R101. -/
def execXdirRsp (s : State) : Host.Outcome State Fault Refusal := runRow .xdirRsp markRsp rowXdirRsp s
/-- XDIR.DESYNC, R102. -/
def execXdirDesync (b : Byte) (s : State) : Host.Outcome State Fault Refusal := runRow .xdirDesync b rowXdirDesync s
/-- XFLAGS, R103. -/
def execXflags (b : Byte) (s : State) : Host.Outcome State Fault Refusal := runRow .xflags b (rowXflags b) s
/-- XID.LO, R104. -/
def execXidLo (b : Byte) (s : State) : Host.Outcome State Fault Refusal := runRow .xidLo b (rowXidLo b) s
/-- XID.HI, R105. -/
def execXidHi (b : Byte) (s : State) : Host.Outcome State Fault Refusal := runRow .xidHi b (rowXidHi b) s
/-- XLEN.LO, R106. -/
def execXlenLo (b : Byte) (s : State) : Host.Outcome State Fault Refusal := runRow .xlenLo b (rowXlenLo b) s
/-- XLEN.HI, R107. -/
def execXlenHi (b : Byte) (s : State) : Host.Outcome State Fault Refusal := runRow .xlenHi b (rowXlenHi b) s
/-- XDATA, R108. -/
def execXdata (b : Byte) (s : State) : Host.Outcome State Fault Refusal := runRow .xdata b (rowXdata b) s
/-- XCRC.OK, R109. -/
def execXcrcOk (b : Byte) (s : State) : Host.Outcome State Fault Refusal := runRow .xcrcOk b rowXcrcOk s
/-- XCRC.BAD, R110. -/
def execXcrcBad (b : Byte) (s : State) : Host.Outcome State Fault Refusal := runRow .xcrcBad b rowXcrcBad s

end Sys2Proof.Machine
end

