-- ==== Sys2Proof/Machine/Legacy.lean ====
section
/-! DEFINITION. The rows of the legacy branch (41_decoder_legacy.md section 4): what each does to the Decoder State, and its
meaning as an instruction. -/

namespace Sys2Proof.Machine

/-- DIR.REQ, R86. -/
def rowDirReq (d : DecState) : DecResult := goto .readLen { d with isResponse := false }
/-- DIR.RSP, R87. -/
def rowDirRsp (d : DecState) : DecResult := goto .readLen { d with isResponse := true }
/-- DIR.DESYNC, R89. -/
def rowDirDesync (d : DecState) : DecResult := takeEvent .desync d
/-- LEN, R90: `csum` is loaded. -/
def rowLen (b : Byte) (d : DecState) : DecResult := .ok ({ d with len := zext16 b, csum := b, st := .readCmd }, none)
/-- CMD, R91. -/
def rowCmd (b : Byte) (d : DecState) : DecResult :=
  .ok (beginPayload .readData .readCrc { d with command := zext16 b, csum := xor8 d.csum b }, none)
/-- DATA, R92. -/
def rowData (b : Byte) (d : DecState) : DecResult := storePayload b (xor8 d.csum b) .readData .readCrc d
/-- CRC.OK, R93. -/
def rowCrcOk (d : DecState) : DecResult := emitMessage d
/-- CRC.BAD, R94. -/
def rowCrcBad (d : DecState) : DecResult := takeEvent (.checksumMismatch d.command) d

/-- DIR.REQ, R86. -/
def execDirReq (s : State) : Host.Outcome State Fault Refusal := runRow .dirReq markReq rowDirReq s
/-- DIR.RSP, R87. -/
def execDirRsp (s : State) : Host.Outcome State Fault Refusal := runRow .dirRsp markRsp rowDirRsp s
/-- DIR.DESYNC, R89. -/
def execDirDesync (b : Byte) (s : State) : Host.Outcome State Fault Refusal := runRow .dirDesync b rowDirDesync s
/-- LEN, R90. -/
def execLen (b : Byte) (s : State) : Host.Outcome State Fault Refusal := runRow .len b (rowLen b) s
/-- CMD, R91. -/
def execCmd (b : Byte) (s : State) : Host.Outcome State Fault Refusal := runRow .cmd b (rowCmd b) s
/-- DATA, R92. -/
def execData (b : Byte) (s : State) : Host.Outcome State Fault Refusal := runRow .data b (rowData b) s
/-- CRC.OK, R93. -/
def execCrcOk (b : Byte) (s : State) : Host.Outcome State Fault Refusal := runRow .crcOk b rowCrcOk s
/-- CRC.BAD, R94. -/
def execCrcBad (b : Byte) (s : State) : Host.Outcome State Fault Refusal := runRow .crcBad b rowCrcBad s

end Sys2Proof.Machine
end

