-- ==== Sys2Proof/Machine/Shared.lean ====
section
/-! DEFINITION. The rows of the two states both branches share (41_decoder_legacy.md section 3): what each does to the
Decoder State, and its meaning as an instruction. -/

namespace Sys2Proof.Machine

/-- IDLE.SYNC, R82. -/
def rowIdleSync (d : DecState) : DecResult := .ok ({ startMessage d with st := .awaitFormat }, none)
/-- IDLE.SKIP, R83: nothing is written. -/
def rowIdleSkip (d : DecState) : DecResult := .ok (d, none)
/-- FMT.LEGACY, R84. -/
def rowFmtLegacy (d : DecState) : DecResult := goto .awaitDirection d
/-- FMT.EXT, R85. -/
def rowFmtExt (d : DecState) : DecResult := goto .extAwaitDirection d
/-- FMT.DESYNC, R88. -/
def rowFmtDesync (d : DecState) : DecResult := takeEvent .desync d

/-- IDLE.SYNC, R82. -/
def execIdleSync (s : State) : Host.Outcome State Fault Refusal := runRow .idleSync markSync rowIdleSync s
/-- IDLE.SKIP, R83. -/
def execIdleSkip (b : Byte) (s : State) : Host.Outcome State Fault Refusal := runRow .idleSkip b rowIdleSkip s
/-- FMT.LEGACY, R84. -/
def execFmtLegacy (s : State) : Host.Outcome State Fault Refusal := runRow .fmtLegacy markLegacy rowFmtLegacy s
/-- FMT.EXT, R85. -/
def execFmtExt (s : State) : Host.Outcome State Fault Refusal := runRow .fmtExt markExt rowFmtExt s
/-- FMT.DESYNC, R88. -/
def execFmtDesync (b : Byte) (s : State) : Host.Outcome State Fault Refusal := runRow .fmtDesync b rowFmtDesync s

end Sys2Proof.Machine
end

