-- ==== Sys2Proof/Machine/Decoder.lean ====
section
/-! DEFINITION. The decoder's step and chunk (41_decoder_legacy.md R80, R81), its reset (70_reset_and_hazards.md R156), and a
received frame as the chunk of its bytes (30_encoding.md R46, R47). -/

namespace Sys2Proof.Machine

/-- The effect of a row on the Decoder State, for the byte that selected it. -/
def rowEffect (row : DecRow) (b : Byte) (d : DecState) : DecResult :=
  match row with
  | .idleSync => rowIdleSync d
  | .idleSkip => rowIdleSkip d
  | .fmtLegacy => rowFmtLegacy d
  | .fmtExt => rowFmtExt d
  | .fmtDesync => rowFmtDesync d
  | .dirReq => rowDirReq d
  | .dirRsp => rowDirRsp d
  | .dirDesync => rowDirDesync d
  | .len => rowLen b d
  | .cmd => rowCmd b d
  | .data => rowData b d
  | .crcOk => rowCrcOk d
  | .crcBad => rowCrcBad d
  | .xdirReq => rowXdirReq d
  | .xdirRsp => rowXdirRsp d
  | .xdirDesync => rowXdirDesync d
  | .xflags => rowXflags b d
  | .xidLo => rowXidLo b d
  | .xidHi => rowXidHi b d
  | .xlenLo => rowXlenLo b d
  | .xlenHi => rowXlenHi b d
  | .xdata => rowXdata b d
  | .xcrcOk => rowXcrcOk d
  | .xcrcBad => rowXcrcBad d

/-- `DEC.STEP b`, R80: the row the decode map selects, and nothing else. -/
def decStep (b : Byte) (d : DecState) : DecResult := rowEffect (selectRow d.st d.csum b) b d

/-- `DEC.FEED bytes`, R81: one step per byte in order; the outputs are the non-empty step outputs in step order. -/
def decFeed : List Byte → DecState → Except Fault (DecState × List DecOutput)
  | [], d => .ok (d, [])
  | b :: rest, d =>
    match decStep b d with
    | .ok (d', out) =>
      match decFeed rest d' with
      | .ok (d'', outs) => .ok (d'', out.toList ++ outs)
      | .error f => .error f
    | .error f => .error f

/-- DEC.STEP b, R80. -/
def execDecStep (b : Byte) (s : State) : Host.Outcome State Fault Refusal := commitStep s (decStep b s.dec)
/-- DEC.FEED bytes, R81. -/
def execDecFeed (bytes : List Byte) (s : State) : Host.Outcome State Fault Refusal := commitDec s (decFeed bytes s.dec)
/-- DEC.RESET, R156. -/
def execDecReset (s : State) : Host.Outcome State Fault Refusal := .next { s with dec := decClear s.dec }
/-- FRAME.LEGACY_RX, R46: the bytes of the layout reach the decoder (log entry 11). -/
def execFrameLegacyRx (d n c : Byte) (payload : List Byte) (k : Byte) (s : State) : Host.Outcome State Fault Refusal :=
  commitDec s (decFeed (legacyRxBytes d n c payload k) s.dec)
/-- FRAME.EXT_RX, R47: the bytes of the layout reach the decoder (log entry 11). -/
def execFrameExtRx (d f cl ch nl nh : Byte) (payload : List Byte) (k : Byte) (s : State) :
    Host.Outcome State Fault Refusal :=
  commitDec s (decFeed (extRxBytes d f cl ch nl nh payload k) s.dec)

end Sys2Proof.Machine
end

