-- ==== Sys2Proof/Machine/Encoder.lean ====
section
/-! DEFINITION. The legacy frame encoder (43_encoder_legacy.md): the whole-frame operation (R121), its precondition (R124),
the byte-serial realisation (R126), its reset (R157) and the pseudo-operations (R129). -/

namespace Sys2Proof.Machine

/-! ### The byte-serial realisation -/

/-- One step of the serialiser, R126: the new registers and the byte emitted. In `ENC_IDLE` with no request nothing happens. -/
def encTick (e : EncState) : Except Fault (EncState × Option Byte) :=
  match e.st with
  | .encIdle => .ok (e, none)
  | .encSync => .ok ({ e with st := .encFmt }, some markSync)
  | .encFmt => .ok ({ e with st := .encDir }, some markLegacy)
  | .encDir => .ok ({ e with st := .encLen }, some markEnc)
  | .encLen => .ok ({ e with csum := xor8 e.csum e.len, st := .encCmd }, some e.len)
  | .encCmd =>
    .ok ({ e with csum := xor8 e.csum e.cmd, st := if e.len = 0#8 then .encCsum else .encData }, some e.cmd)
  | .encData =>
    match e.payload[e.idx.toNat]? with
    | some v =>
      let idx := e.idx + 1#8
      .ok ({ e with csum := xor8 e.csum v, idx := idx,
                    st := if encComplete idx e.len then .encCsum else .encData }, some v)
    | none => .error .encPayloadOutOfRange
  | .encCsum => .ok ({ e with st := .encIdle }, some e.csum)

/-- The serialiser takes a request (R126, row `ENC_IDLE`). -/
def encLoad (c : Byte) (payload : List Byte) (e : EncState) : EncState :=
  { e with st := .encSync, cmd := c, len := lengthByte payload, idx := 0#8, csum := 0#8, payload := payload }

/-- One serialiser step of the machine: its byte goes to `OUT` (R23). -/
def stepSerialiser (s : State) : Host.Outcome State Fault Refusal :=
  match encTick s.enc with
  | .ok (e, out) => .next { s with enc := e, encOut := s.encOut ++ out.toList }
  | .error f => .fault f

/-- An encode request reaches ENC. More than 255 payload bytes: refused, nothing changes (R124). While the serialiser is in
the middle of a frame the request is not accepted: it stays first in line and the serialiser goes on (R126, R40; log entry
9). Otherwise `accept` takes it. -/
def encRequest (again : Stimulus) (payload : List Byte) (accept : State → State) (s : State) :
    Host.Outcome State Fault Refusal :=
  if payload.length ≤ Config.encPayloadMax then
    if s.enc.st = .encIdle then .next (accept s)
    else stepSerialiser { s with pending := again :: s.pending }
  else .refused .encodeOversize

/-- A whole frame goes to `OUT` (R121); no register changes (R21). -/
def emitFrame (c : Byte) (payload : List Byte) (s : State) : State :=
  { s with encOut := s.encOut ++ legacyTxBytes c payload }

/-- ENC.LEGACY cmd, payload, R121. -/
def execEncLegacy (c : Byte) (payload : List Byte) (s : State) : Host.Outcome State Fault Refusal :=
  encRequest (.op (.encLegacy c payload)) payload (emitFrame c payload) s
/-- ENC.RESET, R157. -/
def execEncReset (s : State) : Host.Outcome State Fault Refusal := .next { s with enc := encClear s.enc }
/-- FRAME.LEGACY_TX, R48: the encoder produces the frame of the layout (log entry 12). -/
def execFrameLegacyTx (c : Byte) (payload : List Byte) (s : State) : Host.Outcome State Fault Refusal :=
  encRequest (.op (encode (.frameLegacyTx c payload))) payload (emitFrame c payload) s
/-- VARIANT, R129. -/
def execVariant (s : State) : Host.Outcome State Fault Refusal :=
  encRequest (.op (encode .variant)) [] (emitFrame cmdVariant []) s
/-- VERSION, R129. -/
def execVersion (s : State) : Host.Outcome State Fault Refusal :=
  encRequest (.op (encode .version)) [] (emitFrame cmdVersion []) s
/-- REBOOT, R129. -/
def execReboot (s : State) : Host.Outcome State Fault Refusal :=
  encRequest (.op (encode .reboot)) [] (emitFrame cmdReboot []) s

end Sys2Proof.Machine
end

