-- ==== Sys2Proof/Machine/Engines.lean ====
section
/-! DEFINITION. The checksum functions as calls and the standalone engines (40_checksum_engines.md R66, R68, R69, R74, R75). -/

namespace Sys2Proof.Machine

/-- XOR8.UPDATE acc, b, R66. -/
def execXor8Update (acc b : Byte) (s : State) : Host.Outcome State Fault Refusal := returnResult (xor8 acc b) s
/-- CRC8.BIT c, R68. -/
def execCrc8Bit (c : Byte) (s : State) : Host.Outcome State Fault Refusal := returnResult (crc8Bit c) s
/-- CRC8.UPDATE crc, b, R69. -/
def execCrc8Update (crc b : Byte) (s : State) : Host.Outcome State Fault Refusal := returnResult (crc8 crc b) s
/-- XOR8.INIT, R74. -/
def execXor8Init (s : State) : Host.Outcome State Fault Refusal := .next { s with xorAcc := xorSeed }
/-- XOR8.STEP b, R74. -/
def execXor8Step (b : Byte) (s : State) : Host.Outcome State Fault Refusal := .next { s with xorAcc := xor8 s.xorAcc b }
/-- CRC8.INIT, R75. -/
def execCrc8Init (s : State) : Host.Outcome State Fault Refusal := .next { s with crcAcc := crcSeed }
/-- CRC8.STEP b, R75. -/
def execCrc8Step (b : Byte) (s : State) : Host.Outcome State Fault Refusal := .next { s with crcAcc := crc8 s.crcAcc b }

end Sys2Proof.Machine
end

