-- ==== Sys2Proof/Machine/Dispatch.lean ====
section
/-! DEFINITION. One arm per constructor of Instr: the meaning of each operation (00_scope.md R2). -/

namespace Sys2Proof.Machine

def exec (i : Instr) (s : State) : Host.Outcome State Fault Refusal :=
  match i with
  | .idleSync => Sys2Proof.Machine.execIdleSync s
  | .idleSkip b => Sys2Proof.Machine.execIdleSkip b s
  | .fmtLegacy => Sys2Proof.Machine.execFmtLegacy s
  | .fmtExt => Sys2Proof.Machine.execFmtExt s
  | .fmtDesync b => Sys2Proof.Machine.execFmtDesync b s
  | .dirReq => Sys2Proof.Machine.execDirReq s
  | .dirRsp => Sys2Proof.Machine.execDirRsp s
  | .dirDesync b => Sys2Proof.Machine.execDirDesync b s
  | .len b => Sys2Proof.Machine.execLen b s
  | .cmd b => Sys2Proof.Machine.execCmd b s
  | .data b => Sys2Proof.Machine.execData b s
  | .crcOk b => Sys2Proof.Machine.execCrcOk b s
  | .crcBad b => Sys2Proof.Machine.execCrcBad b s
  | .xdirReq => Sys2Proof.Machine.execXdirReq s
  | .xdirRsp => Sys2Proof.Machine.execXdirRsp s
  | .xdirDesync b => Sys2Proof.Machine.execXdirDesync b s
  | .xflags b => Sys2Proof.Machine.execXflags b s
  | .xidLo b => Sys2Proof.Machine.execXidLo b s
  | .xidHi b => Sys2Proof.Machine.execXidHi b s
  | .xlenLo b => Sys2Proof.Machine.execXlenLo b s
  | .xlenHi b => Sys2Proof.Machine.execXlenHi b s
  | .xdata b => Sys2Proof.Machine.execXdata b s
  | .xcrcOk b => Sys2Proof.Machine.execXcrcOk b s
  | .xcrcBad b => Sys2Proof.Machine.execXcrcBad b s
  | .xor8Update acc b => Sys2Proof.Machine.execXor8Update acc b s
  | .crc8Bit c => Sys2Proof.Machine.execCrc8Bit c s
  | .crc8Update crc b => Sys2Proof.Machine.execCrc8Update crc b s
  | .xor8Init => Sys2Proof.Machine.execXor8Init s
  | .xor8Step b => Sys2Proof.Machine.execXor8Step b s
  | .crc8Init => Sys2Proof.Machine.execCrc8Init s
  | .crc8Step b => Sys2Proof.Machine.execCrc8Step b s
  | .decStep b => Sys2Proof.Machine.execDecStep b s
  | .decFeed bytes => Sys2Proof.Machine.execDecFeed bytes s
  | .decReset => Sys2Proof.Machine.execDecReset s
  | .encReset => Sys2Proof.Machine.execEncReset s
  | .encLegacy cmd payload => Sys2Proof.Machine.execEncLegacy cmd payload s
  | .frameLegacyRx d n c payload k => Sys2Proof.Machine.execFrameLegacyRx d n c payload k s
  | .frameExtRx d f cl ch nl nh payload k => Sys2Proof.Machine.execFrameExtRx d f cl ch nl nh payload k s
  | .frameLegacyTx cmd payload => Sys2Proof.Machine.execFrameLegacyTx cmd payload s
  | .variant => Sys2Proof.Machine.execVariant s
  | .version => Sys2Proof.Machine.execVersion s
  | .reboot => Sys2Proof.Machine.execReboot s

end Sys2Proof.Machine
end

