-- ==== Sys2Proof/Machine/Fetch.lean ====
section
/-! DEFINITION. What the host presents that is no operation of the table: reset of both agents (60_exceptions.md R142),
the byte-serial encoder's start and step (43_encoder_legacy.md R126); what happens when nothing is presented (R153); and
where a row's word is placed for the next step (log entries 1 and 2). -/

namespace Sys2Proof.Machine

/-- Reset of both agents (R60, R156, R157). A byte presented together with it is lost (R142, D15); nothing is output, and
the standalone accumulators are not part of it (log entry 16). -/
def resetBoth (_coincident : Option Byte) (s : State) : Host.Outcome State Fault Refusal :=
  .next { s with dec := decClear s.dec, enc := encClear s.enc }

/-- A request to the byte-serial encoder (R126). -/
def startSerialiser (c : Byte) (payload : List Byte) (s : State) : Host.Outcome State Fault Refusal :=
  encRequest (.encStart c payload) payload (fun u => { u with enc := encLoad c payload u.enc }) s

/-- Nothing is presented: the block waits and nothing changes (R153); a frame being serialised goes on (log entry 10). -/
def waitForHost (s : State) : Host.Outcome State Fault Refusal := stepSerialiser s

/-- The state in which a row's word is the next thing served: its request is first in line, and for a byte the decoder is
in the position that takes it (log entry 2). -/
def placeWord (s : State) (nbits w : Nat) : State :=
  { s with dec := { s.dec with st := tablePosition nbits w s.dec.st },
           pending := .op (tableRequest nbits w) :: s.pending }

end Sys2Proof.Machine
end

