-- ==== Sys2Proof/Machine/Step.lean ====
section
/-! DEFINITION. One step of the machine (00_scope.md R5): the oldest thing the host has presented is taken and served. -/

namespace Sys2Proof.Machine

/-- One step. A word is decoded where the decoder stands (R53, R54) and run; with nothing presented the block waits. -/
def step (s : State) : Host.Outcome State Fault Refusal :=
  match s.pending with
  | [] => waitForHost s
  | .op r :: rest =>
    match decode s.dec.st s.dec.csum r with
    | .ok i => exec i { s with pending := rest }
    | .error e => .refused (.undecodable e)
  | .rst b :: rest => resetBoth b { s with pending := rest }
  | .encStart c payload :: rest => startSerialiser c payload { s with pending := rest }
  | .encTick :: rest => stepSerialiser { s with pending := rest }

/-- `s` with a row's word placed where `step` takes its next instruction. -/
def State.withFetchWord (s : State) (nbits w : Nat) : State := placeWord s nbits w

end Sys2Proof.Machine
end

