-- ==== Sys2Proof/Safety.lean ====
section
/-! DEFINITION. What holds in every state a run reaches: the payload buffer is in its canonical form, no payload byte is read
before it is written, `counter` never passes `len`, and the serialiser's registers agree with the bytes it has emitted. -/

namespace Sys2Proof.Machine

/-- Every index below the bound has been written. -/
def Memory.holdsBelow (m : Memory) : Nat → Bool
  | 0 => true
  | n + 1 => Memory.holdsBelow m n && (m.lookup n).isSome

/-- What each position promises (10_state.md R13 to R15, 20_memory.md R31, R32): `counter` is 0 until a payload begins, is
below `len` in a data state and equals it in a checksum state; every payload byte counted has been written; in the legacy
branch `len` and `command` fit in a byte. -/
def DecState.posInv (d : DecState) : Bool :=
  match d.st with
  | .idle => true
  | .awaitFormat | .awaitDirection | .readLen | .extAwaitDirection | .extFlags | .extIdLo | .extIdHi
  | .extLenLo | .extLenHi => d.counter == 0#16
  | .readCmd => d.counter == 0#16 && decide (d.len.toNat ≤ 255)
  | .readData =>
    decide (d.counter.toNat < d.len.toNat) && decide (d.len.toNat ≤ 255) && decide (d.command.toNat ≤ 255)
      && Memory.holdsBelow d.payload d.counter.toNat
  | .readCrc =>
    d.counter == d.len && decide (d.len.toNat ≤ 255) && decide (d.command.toNat ≤ 255)
      && Memory.holdsBelow d.payload d.len.toNat
  | .extData => decide (d.counter.toNat < d.len.toNat) && Memory.holdsBelow d.payload d.counter.toNat
  | .extChecksum => d.counter == d.len && Memory.holdsBelow d.payload d.len.toNat

/-- The decoder's invariant: canonical buffer, `counter <= len` (R15), and what the position promises. -/
def DecState.inv (d : DecState) : Bool :=
  d.payload.wf && decide (d.counter.toNat ≤ d.len.toNat) && d.posInv

/-- The serialiser's invariant (R22, R126): the length byte is the payload's length, the index is in range, and the running
checksum covers exactly the bytes emitted so far from the length byte on. -/
def EncState.inv (e : EncState) : Bool :=
  match e.st with
  | .encIdle => true
  | .encSync | .encFmt | .encDir | .encLen => e.payload.length == e.len.toNat && e.idx == 0#8 && e.csum == 0#8
  | .encCmd => e.payload.length == e.len.toNat && e.idx == 0#8 && e.csum == e.len
  | .encData =>
    e.payload.length == e.len.toNat && decide (e.idx.toNat < e.len.toNat)
      && e.csum == legacyChecksum e.len e.cmd (e.payload.take e.idx.toNat)
  | .encCsum => e.payload.length == e.len.toNat && e.csum == legacyChecksum e.len e.cmd e.payload

/-- The machine's invariant: both agents'. -/
def State.inv (s : State) : Bool := s.dec.inv && s.enc.inv

/-- The outcome is no fault. -/
def notFault : Host.Outcome State Fault Refusal → Bool
  | .next _ => true
  | .fault _ => false
  | .refused _ => true

/-- The next state of an outcome, if it has one. -/
def nextState? : Host.Outcome State Fault Refusal → Option State
  | .next s => some s
  | .fault _ => none
  | .refused _ => none

/-- Instructions one after another, stopping at the first that gives no next state. -/
def execAll : List Instr → State → Host.Outcome State Fault Refusal
  | [], s => .next s
  | i :: rest, s =>
    match exec i s with
    | .next t => execAll rest t
    | .fault f => .fault f
    | .refused r => .refused r

/-- The bytes of the frame in progress that the serialiser has not emitted yet (R126); none in `ENC_IDLE`. -/
def encRemaining (e : EncState) : List Byte :=
  let frame := legacyTxBytes e.cmd e.payload
  match e.st with
  | .encIdle => []
  | .encSync => frame
  | .encFmt => frame.drop 1
  | .encDir => frame.drop 2
  | .encLen => frame.drop 3
  | .encCmd => frame.drop 4
  | .encData => frame.drop (5 + e.idx.toNat)
  | .encCsum => frame.drop (5 + e.payload.length)

/-- The operations of the agent DEC: the 24 rows, DEC.STEP, DEC.FEED, DEC.RESET and the receive layouts (R6). -/
def decOp : Instr → Bool
  | .idleSync | .idleSkip _ | .fmtLegacy | .fmtExt | .fmtDesync _ | .dirReq | .dirRsp | .dirDesync _
  | .len _ | .cmd _ | .data _ | .crcOk _ | .crcBad _ | .xdirReq | .xdirRsp | .xdirDesync _ | .xflags _
  | .xidLo _ | .xidHi _ | .xlenLo _ | .xlenHi _ | .xdata _ | .xcrcOk _ | .xcrcBad _
  | .decStep _ | .decFeed _ | .decReset | .frameLegacyRx _ _ _ _ _ | .frameExtRx _ _ _ _ _ _ _ _ => true
  | .xor8Update _ _ | .crc8Bit _ | .crc8Update _ _ | .xor8Init | .xor8Step _ | .crc8Init | .crc8Step _
  | .encReset | .encLegacy _ _ | .frameLegacyTx _ _ | .variant | .version | .reboot => false

/-- The operations of the agent ENC: ENC.LEGACY, ENC.RESET, the transmit layouts and the pseudo-operations (R6). -/
def encOp : Instr → Bool
  | .encReset | .encLegacy _ _ | .frameLegacyTx _ _ | .variant | .version | .reboot => true
  | .idleSync | .idleSkip _ | .fmtLegacy | .fmtExt | .fmtDesync _ | .dirReq | .dirRsp | .dirDesync _
  | .len _ | .cmd _ | .data _ | .crcOk _ | .crcBad _ | .xdirReq | .xdirRsp | .xdirDesync _ | .xflags _
  | .xidLo _ | .xidHi _ | .xlenLo _ | .xlenHi _ | .xdata _ | .xcrcOk _ | .xcrcBad _
  | .decStep _ | .decFeed _ | .decReset | .frameLegacyRx _ _ _ _ _ | .frameExtRx _ _ _ _ _ _ _ _
  | .xor8Update _ _ | .crc8Bit _ | .crc8Update _ _ | .xor8Init | .xor8Step _ | .crc8Init | .crc8Step _ => false

end Sys2Proof.Machine
end

