-- ==== Sys2Proof/Certificates/Slice0/Obligations.lean ====
section
/-! DEFINITION. The statements for the provers, in the order of the spec's files. Each docstring cites the rule of spec/ it
formalises; where a clause is the model's choice, it names the log entry. -/

open Sys2Proof Sys2Proof.Machine

/-! ### Reset and waiting -/

/-- R27: what power-up, `DEC.RESET` and `ENC.RESET` leave. Neither reset emits anything, and `DEC.RESET` does not touch the
payload buffer. -/
def Obligations.ResetValues : Prop :=
  (State.reset.dec.st = .idle ∧ State.reset.dec.isResponse = false ∧ State.reset.dec.command = 0#16 ∧
    State.reset.dec.len = 0#16 ∧ State.reset.dec.counter = 0#16 ∧ State.reset.dec.csum = 0#8 ∧
    State.reset.enc.st = .encIdle ∧ State.reset.enc.cmd = 0#8 ∧ State.reset.enc.len = 0#8 ∧
    State.reset.enc.idx = 0#8 ∧ State.reset.enc.csum = 0#8 ∧ State.reset.xorAcc = 0#8 ∧ State.reset.crcAcc = 0#8 ∧
    State.reset.decOut = [] ∧ State.reset.encOut = []) ∧
  (∀ s : State, ∃ t, exec .decReset s = .next t ∧ t.dec.st = .idle ∧ t.dec.isResponse = false ∧
    t.dec.command = 0#16 ∧ t.dec.len = 0#16 ∧ t.dec.counter = 0#16 ∧ t.dec.csum = 0#8 ∧
    t.dec.payload = s.dec.payload ∧ t.decOut = s.decOut ∧ t.encOut = s.encOut) ∧
  (∀ s : State, ∃ t, exec .encReset s = .next t ∧ t.enc.st = .encIdle ∧ t.enc.cmd = 0#8 ∧ t.enc.len = 0#8 ∧
    t.enc.idx = 0#8 ∧ t.enc.csum = 0#8 ∧ t.decOut = s.decOut ∧ t.encOut = s.encOut)

/-- R156, R157: `DEC.RESET` and `ENC.RESET` at any time, whatever the agent is in the middle of: the six registers of the one
and the five of the other take their reset values and nothing else changes, so the bytes already sent stay sent; two
`DEC.RESET` in a row are the same as one. -/
def Obligations.ResetOperationsResult : Prop :=
  ∀ s : State,
    exec .decReset s = .next { s with dec := { s.dec with
      st := .idle, isResponse := false, command := 0#16, len := 0#16, counter := 0#16, csum := 0#8 } } ∧
    execAll [.decReset, .decReset] s = exec .decReset s ∧
    exec .encReset s = .next { s with enc := { s.enc with
      st := .encIdle, cmd := 0#8, len := 0#8, idx := 0#8, csum := 0#8 } }

/-- R142, last part: a byte presented together with reset is not consumed and produces no output: the step is that of the
two resets, whatever the byte. (The stimulus is the model's, log entry 16.) -/
def Obligations.ResetWinsOverByte : Prop :=
  ∀ (s : State) (b : Option Byte) (rest : List Stimulus), s.pending = .rst b :: rest →
    step s = execAll [.decReset, .encReset] { s with pending := rest }

/-- R153: with nothing presented and no frame being serialised, waiting changes nothing (log entries 1 and 10); and waiting
never changes the decoder or its outputs. -/
def Obligations.WaitingChangesNothing : Prop :=
  ∀ s : State, s.pending = [] →
    (s.enc.st = .encIdle → step s = .next s) ∧
    (∀ t, step s = .next t → t.dec = s.dec ∧ t.decOut = s.decOut)

/-! ### A step runs the decoded instruction -/

/-- R5, R54: when the oldest thing presented is a word that decodes, the step is that instruction run on the state without
it (log entry 1); a whole-frame word without a layout is refused by name (log entry 15). -/
def Obligations.StepRunsDecodedInstruction : Prop :=
  ∀ (s : State) (r : Request) (rest : List Stimulus), s.pending = .op r :: rest →
    (∀ i, decode s.dec.st s.dec.csum r = .ok i → step s = exec i { s with pending := rest }) ∧
    (∀ e, decode s.dec.st s.dec.csum r = .error e → step s = .refused (.undecodable e))

/-- R46 to R48, R53: words written out from the decode map and the frame layouts decode to the operations they stand for.
That the last word, which FRAME.LEGACY_TX's mask also matches, is taken by REBOOT is the model's choice (log entry 12). -/
def Obligations.WordsDecodeAsWritten : Prop :=
  decode .idle 0x00#8 (.decByte 0x24#8) = .ok .idleSync ∧
  decode .awaitFormat 0x00#8 (.decByte 0x4D#8) = .ok .fmtLegacy ∧
  decode .awaitFormat 0x00#8 (.decByte 0x24#8) = .ok (.fmtDesync 0x24#8) ∧
  decode .awaitDirection 0x00#8 (.decByte 0x3C#8) = .ok (.dirDesync 0x3C#8) ∧
  decode .readCrc 0x37#8 (.decByte 0x37#8) = .ok (.crcOk 0x37#8) ∧
  decode .readCrc 0x37#8 (.decByte 0x36#8) = .ok (.crcBad 0x36#8) ∧
  decode .extAwaitDirection 0x00#8 (.decByte 0x21#8) = .ok .xdirReq ∧
  decode .extLenHi 0x00#8 (.decByte 0x24#8) = .ok (.xlenHi 0x24#8) ∧
  decode .idle 0x00#8 (.frameRx [0x24#8, 0x4D#8, 0x3E#8, 0x02#8, 0x05#8, 0x10#8, 0x20#8, 0x37#8]) =
    .ok (.frameLegacyRx 0x3E#8 0x02#8 0x05#8 [0x10#8, 0x20#8] 0x37#8) ∧
  decode .idle 0x00#8 (.frameTx [0x24#8, 0x4D#8, 0x3C#8, 0x00#8, 0x44#8, 0x44#8]) = .ok .reboot

/-- R53: the map selects exactly one row for every position and byte. Read as the table (R54), the row with the lowest
priority number that applies is the mapped one, and no two rows of one priority apply together. -/
def Obligations.DecodeMapIsExact : Prop :=
  ∀ (st : Pos) (csum b : Byte),
    tableSelect st csum b = some (selectRow st csum b) ∧
    (∀ t ∈ decodeTable, ∀ u ∈ decodeTable, t.applies st csum b = true → u.applies st csum b = true →
      t.priority = u.priority → t = u)

/-- R53, R46 to R48: every well-formed instruction's word, presented where the map looks for its row, decodes to it, with
every operand at every value. (For the three pseudo-operations' words see log entry 12.) -/
def Obligations.DecodeOfEncode : Prop :=
  ∀ (i : Instr) (st : Pos) (csum : Byte), i.wf = true → i.context st csum = true →
    decode st csum (encode i) = .ok i

/-- The other direction: a word that decodes is the word of the instruction it decodes to, and that instruction's row is
looked for there. No bit of a word is dropped. -/
def Obligations.EncodeOfDecode : Prop :=
  ∀ (st : Pos) (csum : Byte) (r : Request) (i : Instr), decode st csum r = .ok i →
    encode i = r ∧ i.context st csum = true

/-- R53: a `DEC_BYTE` row run where the map does not select it is refused by name and does nothing (log entry 7). -/
def Obligations.RowsRunOnlyWhereSelected : Prop :=
  ∀ (i : Instr) (r : DecRow) (s : State), i.row? = some r →
    (i.wf = true ∧ i.context s.dec.st s.dec.csum = true ↔ exec i s ≠ .refused .rowNotSelected)

/-! ### The decoder's rows -/

/-- R82: the sync byte in `IDLE` starts a message: the five registers are cleared, the buffer is not touched. -/
def Obligations.IdleSyncStartsMessage : Prop :=
  ∀ s : State, s.dec.st = .idle →
    exec .idleSync s = .next { s with dec := { s.dec with
      isResponse := false, command := 0#16, len := 0#16, counter := 0#16, csum := 0#8, st := .awaitFormat } }

/-- R83: any other byte in `IDLE` changes nothing at all. -/
def Obligations.IdleSkipChangesNothing : Prop :=
  ∀ (s : State) (b : Byte), s.dec.st = .idle → b ≠ 0x24#8 → exec (.idleSkip b) s = .next s

/-- R84, R85: the format markers select the branch and write only `st`. -/
def Obligations.FormatMarkersSelectBranch : Prop :=
  ∀ s : State, s.dec.st = .awaitFormat →
    exec .fmtLegacy s = .next { s with dec := { s.dec with st := .awaitDirection } } ∧
    exec .fmtExt s = .next { s with dec := { s.dec with st := .extAwaitDirection } }

/-- R88, R89, R102 (the event `Desync`, R137): a byte that does not fit sends the decoder to `IDLE`, writes nothing else and
outputs nothing. -/
def Obligations.DesyncFallsBackSilently : Prop :=
  ∀ (s : State) (b : Byte),
    (s.dec.st = .awaitFormat → b ≠ 0x4D#8 → b ≠ 0x58#8 →
      exec (.fmtDesync b) s = .next { s with dec := { s.dec with st := .idle } }) ∧
    (s.dec.st = .awaitDirection → b ≠ 0x21#8 → b ≠ 0x3E#8 →
      exec (.dirDesync b) s = .next { s with dec := { s.dec with st := .idle } }) ∧
    (s.dec.st = .extAwaitDirection → b ≠ 0x21#8 → b ≠ 0x3E#8 →
      exec (.xdirDesync b) s = .next { s with dec := { s.dec with st := .idle } })

/-- R86, R87, R100, R101: the direction markers set `is_response` and go on. -/
def Obligations.DirectionMarkersSetResponse : Prop :=
  ∀ s : State,
    (s.dec.st = .awaitDirection →
      exec .dirReq s = .next { s with dec := { s.dec with isResponse := false, st := .readLen } } ∧
      exec .dirRsp s = .next { s with dec := { s.dec with isResponse := true, st := .readLen } }) ∧
    (s.dec.st = .extAwaitDirection →
      exec .xdirReq s = .next { s with dec := { s.dec with isResponse := false, st := .extFlags } } ∧
      exec .xdirRsp s = .next { s with dec := { s.dec with isResponse := true, st := .extFlags } })

/-- R90: the length byte is zero-extended into `len` and loaded into `csum`. -/
def Obligations.LengthByteLoads : Prop :=
  ∀ (s : State) (b : Byte), s.dec.st = .readLen →
    exec (.len b) s = .next { s with dec := { s.dec with len := b.setWidth 16, csum := b, st := .readCmd } }

/-- R91: the command byte enters `command` and `csum`; with `len == 0` the checksum byte is next and `counter` keeps its
value, otherwise `counter` is 0 and the payload is next. -/
def Obligations.CommandByteBranchesOnLength : Prop :=
  ∀ (s : State) (b : Byte), s.dec.st = .readCmd →
    (s.dec.len = 0#16 → exec (.cmd b) s = .next { s with dec := { s.dec with
      command := b.setWidth 16, csum := s.dec.csum ^^^ b, st := .readCrc } }) ∧
    (s.dec.len ≠ 0#16 → exec (.cmd b) s = .next { s with dec := { s.dec with
      command := b.setWidth 16, csum := s.dec.csum ^^^ b, counter := 0#16, st := .readData } })

/-- R92: a payload byte goes to index `counter` (its value before the increment) and to `csum`; every other index of the
buffer reads as before; the incremented `counter` is compared with `len`. The index is in the buffer (R32). -/
def Obligations.DataByteStoresAndCounts : Prop :=
  ∀ (s : State) (b : Byte), s.dec.st = .readData → s.dec.counter.toNat < 65535 →
    ∃ t, exec (.data b) s = .next t ∧
      t = { s with dec := { s.dec with
        payload := t.dec.payload, csum := s.dec.csum ^^^ b, counter := s.dec.counter + 1#16,
        st := if s.dec.counter + 1#16 = s.dec.len then .readCrc else .readData } } ∧
      memRead t.dec.payload s.dec.counter.toNat = .ok b ∧
      ∀ a, a ≠ s.dec.counter.toNat → memRead t.dec.payload a = memRead s.dec.payload a

/-- R108: as R92, with `crc8` in place of `xor8`. -/
def Obligations.ExtDataByteStoresAndCounts : Prop :=
  ∀ (s : State) (b : Byte), s.dec.st = .extData → s.dec.counter.toNat < 65535 →
    ∃ t, exec (.xdata b) s = .next t ∧
      t = { s with dec := { s.dec with
        payload := t.dec.payload, csum := crc8 s.dec.csum b, counter := s.dec.counter + 1#16,
        st := if s.dec.counter + 1#16 = s.dec.len then .extChecksum else .extData } } ∧
      memRead t.dec.payload s.dec.counter.toNat = .ok b ∧
      ∀ a, a ≠ s.dec.counter.toNat → memRead t.dec.payload a = memRead s.dec.payload a

/-- The model's stops at the buffer (log entries 5 and 6; no state that meets the invariant is one): there is no index above
65534 (R32), so a data row whose `counter` is 65535 stores nothing and faults; and R31 lets a read of a byte nothing has
written be a fault. -/
def Obligations.BufferFaults : Prop :=
  ∀ (s : State) (b : Byte),
    (s.dec.counter.toNat = 65535 →
      (s.dec.st = .readData → exec (.data b) s = .fault .payloadOutOfRange) ∧
      (s.dec.st = .extData → exec (.xdata b) s = .fault .payloadOutOfRange)) ∧
    (b = s.dec.csum → (∃ i, i < s.dec.len.toNat ∧ s.dec.payload.lookup i = none) →
      (s.dec.st = .readCrc → exec (.crcOk b) s = .fault .payloadUnwritten) ∧
      (s.dec.st = .extChecksum → exec (.xcrcOk b) s = .fault .payloadUnwritten))

/-- R93, R109: the checksum byte equal to `csum` emits the message with the `len` payload bytes the buffer holds, and only
`st` changes. -/
def Obligations.GoodChecksumEmitsMessage : Prop :=
  ∀ (s : State) (b : Byte) (p : List Byte), b = s.dec.csum → p.length = s.dec.len.toNat →
    (∀ i (h : i < p.length), memRead s.dec.payload i = .ok p[i]) →
    (s.dec.st = .readCrc → exec (.crcOk b) s = .next { s with
      dec := { s.dec with st := .idle }, decOut := s.decOut ++ [.msg s.dec.isResponse s.dec.command p] }) ∧
    (s.dec.st = .extChecksum → exec (.xcrcOk b) s = .next { s with
      dec := { s.dec with st := .idle }, decOut := s.decOut ++ [.msg s.dec.isResponse s.dec.command p] })

/-- R94, R110 (the event `ChecksumMismatch`, R138): a different byte gives exactly the diagnostic with the command, no
message, and only `st` changes. -/
def Obligations.BadChecksumRaisesMismatch : Prop :=
  ∀ (s : State) (b : Byte), b ≠ s.dec.csum →
    (s.dec.st = .readCrc → exec (.crcBad b) s = .next { s with
      dec := { s.dec with st := .idle }, decOut := s.decOut ++ [.checksumMismatch s.dec.command] }) ∧
    (s.dec.st = .extChecksum → exec (.xcrcBad b) s = .next { s with
      dec := { s.dec with st := .idle }, decOut := s.decOut ++ [.checksumMismatch s.dec.command] })

/-- R103, R104, R105: the flags byte only enters `csum`, from the constant seed; the command is assembled low byte first. -/
def Obligations.ExtFlagsAndCommandBytes : Prop :=
  ∀ (s : State) (b : Byte),
    (s.dec.st = .extFlags → exec (.xflags b) s = .next { s with dec := { s.dec with
      csum := crc8 0x00#8 b, st := .extIdLo } }) ∧
    (s.dec.st = .extIdLo → exec (.xidLo b) s = .next { s with dec := { s.dec with
      csum := crc8 s.dec.csum b, command := b.setWidth 16, st := .extIdHi } }) ∧
    (s.dec.st = .extIdHi → exec (.xidHi b) s = .next { s with dec := { s.dec with
      csum := crc8 s.dec.csum b, command := b ++ s.dec.command.extractLsb' 0 8, st := .extLenLo } })

/-- R106, R107: the length is assembled low byte first; the test is on the new 16-bit length, and `counter` is written only
when it is not 0. -/
def Obligations.ExtLengthBytesBranch : Prop :=
  ∀ (s : State) (b : Byte),
    (s.dec.st = .extLenLo → exec (.xlenLo b) s = .next { s with dec := { s.dec with
      csum := crc8 s.dec.csum b, len := b.setWidth 16, st := .extLenHi } }) ∧
    (s.dec.st = .extLenHi → b ++ s.dec.len.extractLsb' 0 8 = 0#16 →
      exec (.xlenHi b) s = .next { s with dec := { s.dec with
        csum := crc8 s.dec.csum b, len := 0#16, st := .extChecksum } }) ∧
    (s.dec.st = .extLenHi → b ++ s.dec.len.extractLsb' 0 8 ≠ 0#16 →
      exec (.xlenHi b) s = .next { s with dec := { s.dec with
        csum := crc8 s.dec.csum b, len := b ++ s.dec.len.extractLsb' 0 8, counter := 0#16, st := .extData } })

/-- R28, write column, for every row of the decoder: a register not listed keeps its value, in every state, and of the
payload buffer only `DATA` and `XDATA` write, the one byte at `counter`. -/
def Obligations.RowsWriteOnlyTheirRegisters : Prop :=
  ∀ (i : Instr) (s t : State), exec i s = .next t →
    (i.row? = some .idleSkip → t.dec = s.dec) ∧
    ((i.row? = some .fmtLegacy ∨ i.row? = some .fmtExt ∨ i.row? = some .fmtDesync ∨ i.row? = some .dirDesync ∨
      i.row? = some .xdirDesync ∨ i.row? = some .crcOk ∨ i.row? = some .crcBad ∨ i.row? = some .xcrcOk ∨
      i.row? = some .xcrcBad) → t.dec = { s.dec with st := t.dec.st }) ∧
    ((i.row? = some .dirReq ∨ i.row? = some .dirRsp ∨ i.row? = some .xdirReq ∨ i.row? = some .xdirRsp) →
      t.dec = { s.dec with st := t.dec.st, isResponse := t.dec.isResponse }) ∧
    (i.row? = some .idleSync → t.dec.payload = s.dec.payload) ∧
    ((i.row? = some .len ∨ i.row? = some .xlenLo) →
      t.dec = { s.dec with st := t.dec.st, len := t.dec.len, csum := t.dec.csum }) ∧
    (i.row? = some .cmd → t.dec = { s.dec with
      st := t.dec.st, command := t.dec.command, csum := t.dec.csum, counter := t.dec.counter } ∧
      (s.dec.len = 0#16 → t.dec.counter = s.dec.counter)) ∧
    (i.row? = some .xflags → t.dec = { s.dec with st := t.dec.st, csum := t.dec.csum }) ∧
    ((i.row? = some .xidLo ∨ i.row? = some .xidHi) →
      t.dec = { s.dec with st := t.dec.st, csum := t.dec.csum, command := t.dec.command }) ∧
    (i.row? = some .xlenHi → t.dec = { s.dec with
      st := t.dec.st, csum := t.dec.csum, len := t.dec.len, counter := t.dec.counter } ∧
      (t.dec.len = 0#16 → t.dec.counter = s.dec.counter)) ∧
    ((i.row? = some .data ∨ i.row? = some .xdata) → t.dec = { s.dec with
      st := t.dec.st, csum := t.dec.csum, counter := t.dec.counter, payload := t.dec.payload } ∧
      ∀ a, a ≠ s.dec.counter.toNat → memRead t.dec.payload a = memRead s.dec.payload a)

/-! ### The step, the chunk, and the laws of the decoder -/

/-- R80: `DEC.STEP b` performs exactly the row the decode map selects, and in every state that meets the decoder's invariant
it answers a next state that meets it, whatever the byte. (The invariant stands for log entries 5 and 6: the model faults on
a buffer byte no frame wrote, which R31 says is never read.) -/
def Obligations.StepDispatchesToOneRow : Prop :=
  ∀ (s : State) (b : Byte),
    exec (.decStep b) s = exec ((selectRow s.dec.st s.dec.csum b).instr b) s ∧
    (s.dec.inv = true → ∃ t, exec (.decStep b) s = .next t ∧ t.dec.inv = true)

/-- R20: the one output of a `DEC.STEP`: a message exactly in a checksum state when the byte equals `csum`, with `len` payload
bytes; the diagnostic exactly there when it differs; nothing in every other step. -/
def Obligations.StepOutputs : Prop :=
  ∀ (s t : State) (b : Byte), exec (.decStep b) s = .next t →
    ((s.dec.st = .readCrc ∨ s.dec.st = .extChecksum) → b = s.dec.csum →
      ∃ p : List Byte, p.length = s.dec.len.toNat ∧
        (∀ i (h : i < p.length), memRead s.dec.payload i = .ok p[i]) ∧
        t.decOut = s.decOut ++ [.msg s.dec.isResponse s.dec.command p]) ∧
    ((s.dec.st = .readCrc ∨ s.dec.st = .extChecksum) → b ≠ s.dec.csum →
      t.decOut = s.decOut ++ [.checksumMismatch s.dec.command]) ∧
    (s.dec.st ≠ .readCrc → s.dec.st ≠ .extChecksum → t.decOut = s.decOut)

/-- R81: the empty chunk changes nothing; a chunk is one step and then the rest, outputs in step order. -/
def Obligations.FeedIsStepsInOrder : Prop :=
  ∀ (s : State) (b : Byte) (rest : List Byte),
    exec (.decFeed []) s = .next s ∧
    exec (.decFeed (b :: rest)) s = execAll [.decStep b, .decFeed rest] s

/-- R81, R154: from a state that meets the decoder's invariant every chunk is accepted, and the state after it meets it. The
receive layouts (R46, R47) are the chunk of their bytes from every state, whatever their direction and checksum byte and
whatever position the decoder is in; that their rows mean this is the model's reading (log entry 11). -/
def Obligations.FeedAcceptsEveryChunk : Prop :=
  (∀ (s : State) (bytes : List Byte), s.dec.inv = true →
    ∃ t, exec (.decFeed bytes) s = .next t ∧ t.dec.inv = true) ∧
  (∀ (s : State) (d n c k : Byte) (p : List Byte),
    exec (.frameLegacyRx d n c p k) s = exec (.decFeed ([0x24#8, 0x4D#8, d, n, c] ++ p ++ [k])) s) ∧
  (∀ (s : State) (d f cl ch nl nh k : Byte) (p : List Byte),
    exec (.frameExtRx d f cl ch nl nh p k) s =
      exec (.decFeed ([0x24#8, 0x58#8, d, f, cl, ch, nl, nh] ++ p ++ [k])) s)

/-- R95, marked as derived in the spec: feeding `u ++ v` is feeding `u` and then `v`, from every state. -/
def Obligations.ChunkIndependence : Prop :=
  ∀ (s : State) (u v : List Byte), exec (.decFeed (u ++ v)) s = execAll [.decFeed u, .decFeed v] s

/-- R96, marked as derived in the spec: from `IDLE` every well-formed legacy frame gives exactly its message, produced by its
last byte; the buffer keeps what it held above the payload. The bytes are run as the row FRAME.LEGACY_RX, whose meaning as
the chunk of its bytes is log entry 11. -/
def Obligations.LegacyFrameAccepted : Prop :=
  ∀ (s : State) (d n c k : Byte) (p : List Byte), s.dec.st = .idle → (d = 0x21#8 ∨ d = 0x3E#8) →
    p.length = n.toNat → k = p.foldl (fun a x => a ^^^ x) (n ^^^ c) →
    (∃ t, exec (.frameLegacyRx d n c p k) s = .next t ∧ t.dec.st = .idle ∧
      t.decOut = s.decOut ++ [.msg (d == 0x3E#8) (c.setWidth 16) p] ∧
      ∀ a, p.length ≤ a → memRead t.dec.payload a = memRead s.dec.payload a) ∧
    (∃ t, exec (.decFeed ([0x24#8, 0x4D#8, d, n, c] ++ p)) s = .next t ∧ t.decOut = s.decOut)

/-- R97, marked as derived in the spec: the same frame with another last byte gives exactly the diagnostic, and the decoder is
ready for the next `$`; the buffer keeps what it held above the payload. The bytes are run as the row FRAME.LEGACY_RX, whose
meaning as the chunk of its bytes is log entry 11. -/
def Obligations.LegacyFrameRejected : Prop :=
  ∀ (s : State) (d n c k : Byte) (p : List Byte), s.dec.st = .idle → (d = 0x21#8 ∨ d = 0x3E#8) →
    p.length = n.toNat → k ≠ p.foldl (fun a x => a ^^^ x) (n ^^^ c) →
    ∃ t, exec (.frameLegacyRx d n c p k) s = .next t ∧ t.dec.st = .idle ∧
      t.decOut = s.decOut ++ [.checksumMismatch (c.setWidth 16)] ∧
      ∀ a, p.length ≤ a → memRead t.dec.payload a = memRead s.dec.payload a

/-- R111, marked as derived in the spec: from `IDLE` an extended frame gives exactly its message, produced by its last byte, or,
with another last byte, exactly the diagnostic; the buffer keeps what it held above the payload. The bytes are run as the row
FRAME.EXT_RX, whose meaning as the chunk of its bytes is log entry 11. -/
def Obligations.ExtFrameAcceptedOrRejected : Prop :=
  ∀ (s : State) (d f cl ch nl nh k : Byte) (p : List Byte), s.dec.st = .idle → (d = 0x21#8 ∨ d = 0x3E#8) →
    p.length = (nh ++ nl : Half).toNat →
    ∃ t, exec (.frameExtRx d f cl ch nl nh p k) s = .next t ∧ t.dec.st = .idle ∧
      (k = crc8List 0x00#8 ([f, cl, ch, nl, nh] ++ p) →
        t.decOut = s.decOut ++ [.msg (d == 0x3E#8) (ch ++ cl) p]) ∧
      (k ≠ crc8List 0x00#8 ([f, cl, ch, nl, nh] ++ p) →
        t.decOut = s.decOut ++ [.checksumMismatch (ch ++ cl)]) ∧
      (∀ a, p.length ≤ a → memRead t.dec.payload a = memRead s.dec.payload a) ∧
      (∃ u, exec (.decFeed ([0x24#8, 0x58#8, d, f, cl, ch, nl, nh] ++ p)) s = .next u ∧ u.decOut = s.decOut)

/-- R98, marked as derived in the spec: in `IDLE`, bytes without 0x24 change nothing and output nothing. -/
def Obligations.GarbageWithoutSyncIgnored : Prop :=
  ∀ (s : State) (g : List Byte), s.dec.st = .idle → 0x24#8 ∉ g → exec (.decFeed g) s = .next s

/-- R163, and R99, marked as derived in the spec: outside `IDLE` no byte, `$` included, starts a message. -/
def Obligations.NoRestartInsideFrame : Prop :=
  ∀ (s t : State) (b : Byte), s.dec.st ≠ .idle → exec (.decStep b) s = .next t → t.dec.st ≠ .awaitFormat

/-- R43 and R171 (marked as derived in the spec): at a flags, command or payload position the decoder's next position,
`counter` and `len` are the same whatever the byte: such a byte is never read as framing. -/
def Obligations.PayloadIsNeverFraming : Prop :=
  ∀ (s t u : State) (b b' : Byte),
    (s.dec.st = .readCmd ∨ s.dec.st = .readData ∨ s.dec.st = .extFlags ∨ s.dec.st = .extIdLo ∨ s.dec.st = .extIdHi ∨
      s.dec.st = .extData) →
    exec (.decStep b) s = .next t → exec (.decStep b') s = .next u →
    t.dec.st = u.dec.st ∧ t.dec.counter = u.dec.counter ∧ t.dec.len = u.dec.len

/-- R27, R28 (last paragraph), R18: from `IDLE` no register and no buffer byte can reach an output: two machines that differ
in all of them answer every stream with the same outputs and stand in the same position after it. -/
def Obligations.StaleStateIsUnobservable : Prop :=
  ∀ (s₁ s₂ : State) (bytes : List Byte), s₁.dec.st = .idle → s₂.dec.st = .idle →
    ∃ t₁ t₂ outs, exec (.decFeed bytes) s₁ = .next t₁ ∧ exec (.decFeed bytes) s₂ = .next t₂ ∧
      t₁.decOut = s₁.decOut ++ outs ∧ t₂.decOut = s₂.decOut ++ outs ∧ t₁.dec.st = t₂.dec.st

/-! ### Checksums -/

/-- R66, R68, R69 through the function calls: the result goes to the caller (log entry 3) and nothing else changes. -/
def Obligations.FunctionCallResults : Prop :=
  ∀ (s : State) (x b : Byte),
    let bit : Byte → Byte := fun c => if c.getLsbD 7 = true then ((c <<< 1) &&& 0xFF#8) ^^^ 0xD5#8 else (c <<< 1) &&& 0xFF#8
    exec (.xor8Update x b) s = .next { s with results := s.results ++ [x ^^^ b] } ∧
    exec (.crc8Bit x) s = .next { s with results := s.results ++ [bit x] } ∧
    exec (.crc8Update x b) s = .next { s with
      results := s.results ++ [bit (bit (bit (bit (bit (bit (bit (bit (x ^^^ b))))))))] }

/-- R74, R75: the standalone engines; after `INIT` and `STEP` of the bytes of a list each accumulator holds the list's
checksum from seed 0x00, and nothing else changes. -/
def Obligations.EnginesAccumulate : Prop :=
  ∀ (s : State) (b : Byte) (m : List Byte),
    exec .xor8Init s = .next { s with xorAcc := 0x00#8 } ∧
    exec (.xor8Step b) s = .next { s with xorAcc := s.xorAcc ^^^ b } ∧
    execAll (.xor8Init :: m.map .xor8Step) s = .next { s with xorAcc := xor8List 0x00#8 m } ∧
    exec .crc8Init s = .next { s with crcAcc := 0x00#8 } ∧
    exec (.crc8Step b) s = .next { s with crcAcc := crc8 s.crcAcc b } ∧
    execAll (.crc8Init :: m.map .crc8Step) s = .next { s with crcAcc := crc8List 0x00#8 m }

/-- The laws of `xor8`, (a) to (e) of R67, which the spec marks as derived from R66. -/
def Obligations.XorLaws : Prop :=
  (∀ a b c : Byte, xor8 (xor8 a b) c = xor8 a (xor8 b c) ∧ xor8 a b = xor8 b a ∧ xor8 (xor8 a b) b = a) ∧
  (∀ (seed : Byte) (m m' : List Byte), m.Perm m' → xor8List seed m = xor8List seed m') ∧
  (∀ m : List Byte, xor8List 0x00#8 m = 0x00#8 ↔ m.foldr (fun x a => x ^^^ a) 0x00#8 = 0x00#8) ∧
  (∀ b csum : Byte, b = csum ↔ xor8 csum b = 0x00#8) ∧
  (∀ (seed x δ : Byte) (u v : List Byte),
    xor8List seed (u ++ (x ^^^ δ) :: v) = xor8List seed (u ++ x :: v) ^^^ δ) ∧
  (∀ (seed x : Byte) (rest : List Byte), xor8List seed [] = seed ∧
    xor8List seed (x :: rest) = xor8List (xor8 seed x) rest)

/-- The laws of `crc8`, (a) to (f) of R71, which the spec marks as derived from R68 and R69. -/
def Obligations.CrcLaws : Prop :=
  (∀ c b : Byte, crc8 c b = crc8 0x00#8 (c ^^^ b)) ∧
  (∀ a b : Byte, crc8 0x00#8 (a ^^^ b) = crc8 0x00#8 a ^^^ crc8 0x00#8 b) ∧
  (∀ c : Byte, Function.Bijective (fun b => crc8 c b)) ∧
  (∀ b : Byte, Function.Bijective (fun c => crc8 c b)) ∧
  (∀ c b : Byte, crc8 c c = 0x00#8 ∧ (b = c ↔ crc8 c b = 0x00#8)) ∧
  (∀ (seed x y : Byte) (u v : List Byte), x ≠ y → crc8List seed (u ++ x :: v) ≠ crc8List seed (u ++ y :: v)) ∧
  (∀ (seed x : Byte) (rest : List Byte), crc8List seed [] = seed ∧
    crc8List seed (x :: rest) = crc8List (crc8 seed x) rest)

/-- R70 (marked as derived in the spec): `crc8(c, b) = (c ^ b) * x^8 mod G` over GF(2), with `G = x^8 + x^7 + x^6 + x^4 +
x^2 + 1`: the product differs from the result by a multiple of `G` (the multiple of `G` by the polynomial `q` is the
exclusive-or of `G` shifted to each bit of `q`). -/
def Obligations.CrcIsPolynomialRemainder : Prop :=
  ∀ c b : Byte, ∃ q : Byte,
    ((c ^^^ b) ++ 0x00#8 : Half) =
      (((List.range 8).foldl (fun (acc : Half) i => if q.getLsbD i then acc ^^^ (0x1D5#16 <<< i) else acc) 0#16) ^^^
        (crc8 c b).setWidth 16)

/-- R72 (marked as derived in the spec): the parallel form, one exclusive-or equation per result bit. -/
def Obligations.CrcParallelForm : Prop :=
  ∀ crc b : Byte,
    let t := crc ^^^ b
    let n := crc8 crc b
    n.getLsbD 7 = (t.getLsbD 7 ^^ t.getLsbD 6 ^^ t.getLsbD 5 ^^ t.getLsbD 2 ^^ t.getLsbD 0) ∧
    n.getLsbD 6 = (t.getLsbD 7 ^^ t.getLsbD 4 ^^ t.getLsbD 2 ^^ t.getLsbD 1 ^^ t.getLsbD 0) ∧
    n.getLsbD 5 = (t.getLsbD 7 ^^ t.getLsbD 5 ^^ t.getLsbD 3 ^^ t.getLsbD 2 ^^ t.getLsbD 1) ∧
    n.getLsbD 4 = (t.getLsbD 6 ^^ t.getLsbD 4 ^^ t.getLsbD 2 ^^ t.getLsbD 1 ^^ t.getLsbD 0) ∧
    n.getLsbD 3 = (t.getLsbD 7 ^^ t.getLsbD 6 ^^ t.getLsbD 3 ^^ t.getLsbD 2 ^^ t.getLsbD 1) ∧
    n.getLsbD 2 = (t.getLsbD 7 ^^ t.getLsbD 6 ^^ t.getLsbD 5 ^^ t.getLsbD 2 ^^ t.getLsbD 1 ^^ t.getLsbD 0) ∧
    n.getLsbD 1 = (t.getLsbD 7 ^^ t.getLsbD 4 ^^ t.getLsbD 2 ^^ t.getLsbD 1) ∧
    n.getLsbD 0 = (t.getLsbD 7 ^^ t.getLsbD 6 ^^ t.getLsbD 3 ^^ t.getLsbD 1 ^^ t.getLsbD 0) ∧
    crc8Parallel crc b = n

/-- R73 (marked as derived in the spec): the table form, with the 256 entries the rule prints. -/
def Obligations.CrcTableForm : Prop :=
  crcTable.length = 256 ∧ (∀ i : Byte, crcTable[i.toNat]? = some (crc8 0x00#8 i)) ∧
    ∀ crc b : Byte, crc8 crc b = crc8Table crc b

/-! ### The encoder -/

/-- R121, R122, R123: one request outputs exactly the `6 + n` bytes of the frame and changes nothing else. The serialiser is
idle, as it always is at transaction level (R21; log entry 9). -/
def Obligations.EncodeOutputsFrame : Prop :=
  ∀ (s : State) (c : Byte) (p : List Byte), p.length ≤ 255 → s.enc.st = .encIdle →
    ∃ frame : List Byte, exec (.encLegacy c p) s = .next { s with encOut := s.encOut ++ frame } ∧
      frame = [0x24#8, 0x4D#8, 0x3C#8, BitVec.ofNat 8 p.length, c] ++ p ++
        [p.foldl (fun a x => a ^^^ x) (BitVec.ofNat 8 p.length ^^^ c)] ∧
      frame.length = 6 + p.length

/-- R124, R139: an encode request with a payload of more than 255 bytes is refused from every state, the serialiser busy or
not: no byte is output and no state changes. That the transmit layout is such a request is log entry 12, the request to the
byte-serial encoder log entry 9, the refusal as an outcome log entry 8. -/
def Obligations.OversizePayloadRefused : Prop :=
  ∀ (s : State) (c : Byte) (p : List Byte), 255 < p.length →
    exec (.encLegacy c p) s = .refused .encodeOversize ∧ exec (.frameLegacyTx c p) s = .refused .encodeOversize ∧
    ∀ rest, s.pending = .encStart c p :: rest → step s = .refused .encodeOversize

/-- R129: the three pseudo-operations are the encoder's frame, byte for byte. That the transmit layout (R48, given for
reference, R54) is run as ENC.LEGACY of its command and payload is log entry 12. The serialiser is idle; what a request does
that finds it busy is BusyEncoderFinishesFirst (log entry 9). -/
def Obligations.TransmitRowsOutputs : Prop :=
  ∀ s : State, s.enc.st = .encIdle →
    (∀ (c : Byte) (p : List Byte), p.length ≤ 255 → exec (.frameLegacyTx c p) s = exec (.encLegacy c p) s ∧
      ∃ t, exec (.frameLegacyTx c p) s = .next t) ∧
    exec .variant s = .next { s with encOut := s.encOut ++ [0x24#8, 0x4D#8, 0x3C#8, 0x00#8, 0x02#8, 0x02#8] } ∧
    exec .version s = .next { s with encOut := s.encOut ++ [0x24#8, 0x4D#8, 0x3C#8, 0x00#8, 0x03#8, 0x03#8] } ∧
    exec .reboot s = .next { s with encOut := s.encOut ++ [0x24#8, 0x4D#8, 0x3C#8, 0x00#8, 0x44#8, 0x44#8] }

/-- R126, row by row: what the serialiser loads, emits and writes at each position, and that the test after a payload byte is
on the incremented index. What makes it take a step is the model's (log entries 9 and 10): here the host's tick, which is then
served, or nothing presented; `u` is the state without the tick. -/
def Obligations.SerialiserRows : Prop :=
  (∀ (s : State) (c : Byte) (p : List Byte) (rest : List Stimulus), s.pending = .encStart c p :: rest →
    s.enc.st = .encIdle → p.length ≤ 255 → step s = .next { s with pending := rest, enc :=
      { st := .encSync, cmd := c, len := BitVec.ofNat 8 p.length, idx := 0#8, csum := 0#8, payload := p } }) ∧
  (∀ s u : State, (s.pending = [] ∧ u = s) ∨ (∃ rest, s.pending = .encTick :: rest ∧ u = { s with pending := rest }) →
    (u.enc.st = .encIdle → step s = .next u) ∧
    (u.enc.st = .encSync → step s = .next { u with enc := { u.enc with st := .encFmt }, encOut := u.encOut ++ [0x24#8] }) ∧
    (u.enc.st = .encFmt → step s = .next { u with enc := { u.enc with st := .encDir }, encOut := u.encOut ++ [0x4D#8] }) ∧
    (u.enc.st = .encDir → step s = .next { u with enc := { u.enc with st := .encLen }, encOut := u.encOut ++ [0x3C#8] }) ∧
    (u.enc.st = .encLen → step s = .next { u with
      enc := { u.enc with csum := u.enc.csum ^^^ u.enc.len, st := .encCmd }, encOut := u.encOut ++ [u.enc.len] }) ∧
    (u.enc.st = .encCmd → step s = .next { u with
      enc := { u.enc with csum := u.enc.csum ^^^ u.enc.cmd, st := if u.enc.len = 0#8 then .encCsum else .encData },
      encOut := u.encOut ++ [u.enc.cmd] }) ∧
    (∀ v, u.enc.st = .encData → u.enc.payload[u.enc.idx.toNat]? = some v → step s = .next { u with
      enc := { u.enc with csum := u.enc.csum ^^^ v, idx := u.enc.idx + 1#8,
                          st := if u.enc.idx + 1#8 = u.enc.len then .encCsum else .encData },
      encOut := u.encOut ++ [v] }) ∧
    (u.enc.st = .encCsum → step s = .next { u with
      enc := { u.enc with st := .encIdle }, encOut := u.encOut ++ [u.enc.csum] }))

/-- R126 (its sentence on the byte sequence, marked as derived): the byte-serial realisation emits exactly the list of R121:
a request taken by the idle serialiser, and one step per byte while nothing else is presented (log entries 9 and 10), append
the frame to `OUT`, end in `ENC_IDLE` and leave the decoder alone. -/
def Obligations.SerialiserEmitsTheFrame : Prop :=
  ∀ (s : State) (c : Byte) (p : List Byte), p.length ≤ 255 → s.enc.st = .encIdle → s.pending = [.encStart c p] →
    ∃ t, Host.Core.run core (7 + p.length) s = .next t ∧ t.encOut = s.encOut ++ legacyTxBytes c p ∧
      t.enc.st = .encIdle ∧ t.pending = [] ∧ t.dec = s.dec ∧ t.decOut = s.decOut

/-- R126, R40: a request made while a frame is being serialised waits until the serialiser is back in `ENC_IDLE` (log entry 9):
the rest of the frame in progress comes out first, and the bytes of two frames never interleave. An `ENC.LEGACY`, a transmit
layout or a pseudo-operation (log entry 12) then outputs its whole frame; a request to the byte-serial encoder is then loaded.
The decoder is left alone. -/
def Obligations.BusyEncoderFinishesFirst : Prop :=
  ∀ (s : State) (c : Byte) (p : List Byte) (rest : List Stimulus), p.length ≤ 255 → s.enc.inv = true →
    (∀ i : Instr,
      (i = .encLegacy c p ∨ i = .frameLegacyTx c p ∨ (i = .variant ∧ c = 0x02#8 ∧ p = []) ∨
        (i = .version ∧ c = 0x03#8 ∧ p = []) ∨ (i = .reboot ∧ c = 0x44#8 ∧ p = [])) →
      s.pending = .op (encode i) :: rest →
      ∃ n t, n ≤ 262 ∧ Host.Core.run core n s = .next t ∧ t.pending = rest ∧
        t.encOut = s.encOut ++ encRemaining s.enc ++ legacyTxBytes c p ∧ t.enc.st = .encIdle ∧
        t.dec = s.dec ∧ t.decOut = s.decOut) ∧
    (s.pending = .encStart c p :: rest →
      ∃ n t, n ≤ 262 ∧ Host.Core.run core n s = .next t ∧ t.pending = rest ∧
        t.encOut = s.encOut ++ encRemaining s.enc ∧
        t.enc = { st := .encSync, cmd := c, len := BitVec.ofNat 8 p.length, idx := 0#8, csum := 0#8, payload := p } ∧
        t.dec = s.dec ∧ t.decOut = s.decOut)

/-- R127, marked as derived in the spec: the encoder's own frame fed to a decoder in `IDLE`: the first three bytes bring it
back to `IDLE` without output, and if no later byte is 0x24 neither does the rest. -/
def Obligations.LoopBackIsDropped : Prop :=
  ∀ (s u t : State) (c : Byte) (p frame : List Byte), s.enc.st = .encIdle →
    exec (.encLegacy c p) s = .next t → t.encOut = s.encOut ++ frame → u.dec.st = .idle →
    (∃ v, exec (.decFeed (frame.take 3)) u = .next v ∧ v.dec.st = .idle ∧ v.decOut = u.decOut) ∧
    (0x24#8 ∉ frame.drop 3 → ∃ v, exec (.decFeed frame) u = .next v ∧ v.dec.st = .idle ∧ v.decOut = u.decOut)

/-- R128, marked as derived in the spec: the round trip that does hold. The encoder's frame with byte 2 replaced by `!` or
`>`, fed to a decoder in `IDLE` in any chunks, gives exactly one output, the request's message. -/
def Obligations.PatchedRoundTrip : Prop :=
  ∀ (s u t : State) (c d : Byte) (p frame : List Byte) (chunks : List (List Byte)), s.enc.st = .encIdle →
    exec (.encLegacy c p) s = .next t → t.encOut = s.encOut ++ frame → u.dec.st = .idle → (d = 0x21#8 ∨ d = 0x3E#8) →
    chunks.flatten = frame.set 2 d →
    ∃ v, execAll (chunks.map .decFeed) u = .next v ∧ v.dec.st = .idle ∧
      v.decOut = u.decOut ++ [.msg (d == 0x3E#8) (c.setWidth 16) p]

/-! ### Frames of the agents, and the whole machine -/

/-- R6, R40: an operation of DEC that answers a next state changes the Decoder State and the decoder's outputs and nothing
else: not the encoder, not `OUT`, not the accumulators, not the results. -/
def Obligations.DecoderTouchesOnlyItsOwn : Prop :=
  ∀ (i : Instr) (s t : State), decOp i = true → exec i s = .next t →
    ∃ outs, t = { s with dec := t.dec, decOut := s.decOut ++ outs }

/-- R6, R40, R24: an operation of ENC leaves the Decoder State, its buffer, the decoder's outputs, the accumulators and the
results as they were; while the serialiser is idle it changes no register but through ENC.RESET (R21). A function call changes
only the results, an engine operation only its own accumulator. -/
def Obligations.OtherOperationsTouchOnlyTheirOwn : Prop :=
  ∀ (i : Instr) (s t : State), exec i s = .next t →
    (encOp i = true → (∃ outs, t = { s with enc := t.enc, encOut := s.encOut ++ outs, pending := t.pending }) ∧
      (s.enc.st = .encIdle → t.pending = s.pending ∧ (i ≠ .encReset → t.enc = s.enc))) ∧
    (i.format = .func → ∃ v, t = { s with results := s.results ++ [v] }) ∧
    ((i = .xor8Init ∨ ∃ b, i = .xor8Step b) → t = { s with xorAcc := t.xorAcc }) ∧
    ((i = .crc8Init ∨ ∃ b, i = .crc8Step b) → t = { s with crcAcc := t.crcAcc })

/-- R40: an operation of DEC and one of ENC give the same state in either order. -/
def Obligations.AgentsCommute : Prop :=
  ∀ (i j : Instr) (s t u : State), decOp i = true → encOp j = true →
    exec i s = .next t → exec j s = .next u → ∃ v, exec j t = .next v ∧ exec i u = .next v

/-- R36, R39: no step changes or removes an output already given: each stream only grows at its end. -/
def Obligations.OutputsOnlyGrow : Prop :=
  ∀ s t : State, step s = .next t →
    (∃ x, t.decOut = s.decOut ++ x) ∧ (∃ y, t.encOut = s.encOut ++ y) ∧ (∃ z, t.results = s.results ++ z)

/-- The listing of the payload buffer stays in its canonical form in every step, from every state. -/
def Obligations.StepKeepsCanonicalBuffer : Prop :=
  ∀ s t : State, s.dec.payload.wf = true → step s = .next t → t.dec.payload.wf = true

/-- R15, R31, R32, R22: the machine's invariant holds at reset. -/
def Obligations.ResetMeetsInvariant : Prop := State.reset.inv = true

/-- R15, R31, R32, R22: every step keeps the machine's invariant, whatever the host presents: `counter <= len`, every payload
byte counted has been written, the legacy `len` and `command` fit in a byte, and the serialiser's checksum covers what it has
emitted. -/
def Obligations.StepKeepsInvariant : Prop :=
  ∀ s t : State, s.inv = true → step s = .next t → t.inv = true

/-- R154, marked as derived in the spec: from a state that meets the invariant no step faults, whatever the host presents; and
it answers a next state unless the oldest thing presented is an encode request with more than 255 payload bytes (R124, log
entry 8) or a word that does not decode (log entry 15), where it is refused by that name. -/
def Obligations.NothingIsStuck : Prop :=
  ∀ s : State, s.inv = true →
    (∀ f, step s ≠ .fault f) ∧
    (step s = .refused .encodeOversize ↔ ∃ (c : Byte) (p : List Byte) (rest : List Stimulus), 255 < p.length ∧
      (s.pending = .op (.encLegacy c p) :: rest ∨ s.pending = .encStart c p :: rest)) ∧
    (∀ e, step s = .refused (.undecodable e) ↔ ∃ (r : Request) (rest : List Stimulus),
      s.pending = .op r :: rest ∧ decode s.dec.st s.dec.csum r = .error e) ∧
    (∀ r, step s = .refused r → r = .encodeOversize ∨ ∃ e, r = .undecodable e)
end

