-- ==== Sys2Proof/Laws/Checksum.lean ====
section
/-! SUPPORT. The checksum functions on lists: how they split over an append, and the legacy checksum as one exclusive-or. -/

namespace Sys2Proof.Machine

theorem xor8List_append (seed : Byte) (u v : List Byte) : xor8List seed (u ++ v) = xor8List (xor8List seed u) v := by
  induction u generalizing seed with
  | nil => rfl
  | cons x u ih => exact ih _

theorem crc8List_append (seed : Byte) (u v : List Byte) : crc8List seed (u ++ v) = crc8List (crc8List seed u) v := by
  induction u generalizing seed with
  | nil => rfl
  | cons x u ih => exact ih _

theorem xor8List_eq_foldl (seed : Byte) (m : List Byte) : xor8List seed m = m.foldl (fun a b => a ^^^ b) seed := by
  induction m generalizing seed with
  | nil => rfl
  | cons x m ih => exact ih _

theorem crc8List_eq_foldl (seed : Byte) (m : List Byte) : crc8List seed m = m.foldl crc8 seed := by
  induction m generalizing seed with
  | nil => rfl
  | cons x m ih => exact ih _

/-- The seed of a list exclusive-or comes out in front. -/
theorem xor8List_seed (seed : Byte) (m : List Byte) : xor8List seed m = seed ^^^ xor8List 0#8 m := by
  induction m generalizing seed with
  | nil => simp [xor8List]
  | cons x m ih => rw [xor8List, ih, xor8List, ih (xor8 0#8 x)]; simp [xor8, BitVec.xor_assoc]

theorem legacyChecksum_eq (n c : Byte) (p : List Byte) : legacyChecksum n c p = xor8List (xor8 n c) p := by
  simp [legacyChecksum, xor8List, xor8, xorSeed]

/-- `crc8` depends on its arguments only through their exclusive-or (R71 (a)). -/
theorem crc8_eq_seed (c b : Byte) : crc8 c b = crc8 0#8 (c ^^^ b) := by simp [crc8]

end Sys2Proof.Machine
end

