-- ==== Sys2Proof/Laws/Decode.lean ====
section
/-! SUPPORT. The decoder of whole-frame words: which words decode, and to what; the row the decode map selects. -/

namespace Sys2Proof

open Machine

theorem splitTail_append (p : List Byte) (k : Byte) : splitTail p.length (p ++ [k]) = .ok (p, k) := by
  simp [splitTail]

/-- A tail that splits is the payload followed by one byte. -/
theorem splitTail_cases {n : Nat} {tail p : List Byte} {k : Byte} (h : splitTail n tail = .ok (p, k)) :
    tail = p ++ [k] ∧ p.length = n := by
  unfold splitTail at h
  split at h
  · cases h
  · next x hx =>
    cases h
    refine ⟨by rw [← hx, List.take_append_drop], ?_⟩
    have := congrArg List.length hx
    simp only [List.length_drop, List.length_cons, List.length_nil] at this
    simp only [List.length_take]; omega
  · cases h

/-- The row an instruction belongs to is the one the decode map selects, where its context holds (R53). -/
theorem selectRow_of_context {i : Instr} {r : DecRow} {st : Pos} {csum : Byte} (hr : i.row? = some r) (hw : i.wf = true)
    (hc : i.context st csum = true) :
    ∃ b, encode i = .decByte b ∧ selectRow st csum b = r ∧ r.instr b = i := by
  cases i <;> simp_all [Instr.row?, Instr.context, Instr.wf, encode, selectRow] <;> subst hr <;>
    simp [DecRow.instr] <;> simp [markLegacy, markExt, markReq, markRsp]

/-- A received-frame word that decodes is the bytes of the layout of its instruction (R46, R47). -/
theorem decodeFrameRx_cases {bytes : List Byte} {i : Instr} (h : decodeFrameRx bytes = .ok i) :
    (∃ d n c p k, p.length = n.toNat ∧ bytes = legacyRxBytes d n c p k ∧ i = .frameLegacyRx d n c p k) ∨
    (∃ d f cl ch nl nh p k, p.length = (assemble nh nl).toNat ∧ bytes = extRxBytes d f cl ch nl nh p k ∧
      i = .frameExtRx d f cl ch nl nh p k) := by
  unfold decodeFrameRx decodeLegacyRx decodeExtRx at h
  repeat' split at h
  all_goals cases h
  · next hs hm _ _ _ _ _ _ p k hp =>
    obtain ⟨rfl, hl⟩ := splitTail_cases hp
    exact .inl ⟨_, _, _, p, k, hl, by rw [hs, hm]; rfl, rfl⟩
  · next hs _ hm _ _ _ _ _ _ _ _ _ p k hp =>
    obtain ⟨rfl, hl⟩ := splitTail_cases hp
    exact .inr ⟨_, _, _, _, _, _, p, k, hl, by rw [hs, hm]; rfl, rfl⟩

/-- A transmit word that decodes is the encoder's frame of a command and at most 255 payload bytes (R48). -/
theorem decodeFrameTx_cases {bytes : List Byte} {i : Instr} (h : decodeFrameTx bytes = .ok i) :
    ∃ c p, p.length ≤ Config.encPayloadMax ∧ bytes = legacyTxBytes c p ∧ i = frameTxRow c p := by
  unfold decodeFrameTx at h
  repeat' split at h
  all_goals cases h
  next n c _ hs hm hd _ p k hp hk =>
  obtain ⟨rfl, hl⟩ := splitTail_cases hp
  have hn : lengthByte p = n := by simp [lengthByte, hl]
  have := n.isLt
  refine ⟨c, p, by simp only [Config.encPayloadMax]; omega, ?_, rfl⟩
  rw [hs, hm, hd, hk, ← hn]; rfl

/-- The encoder's frame decodes to the transmit row of its command and payload. -/
theorem decodeFrameTx_bytes (c : Byte) {p : List Byte} (h : p.length ≤ Config.encPayloadMax) :
    decodeFrameTx (legacyTxBytes c p) = .ok (frameTxRow c p) := by
  have hn : (lengthByte p).toNat = p.length := by
    simp only [Config.encPayloadMax] at h
    simp only [lengthByte, BitVec.toNat_ofNat]; omega
  simp [legacyTxBytes, decodeFrameTx, hn, splitTail_append]

end Sys2Proof
end

