-- ==== Sys2Proof/Laws/Memory.lean ====
section
/-! SUPPORT. The payload buffer: a read after a write to the same index gives the byte written, a write leaves every other
index alone, and every operation keeps the canonical form. -/

namespace Sys2Proof.Machine

theorem Memory.lookup_insert_same (m : Memory) (a : Nat) (v : Byte) : (m.insert a v).lookup a = some v := by
  induction m with
  | nil => simp [Memory.insert, Memory.lookup]
  | cons cell rest ih =>
    obtain ⟨k, u⟩ := cell
    simp only [Memory.insert]
    split
    · simp [Memory.lookup]
    · split
      · simp [Memory.lookup]
      · next h => simpa [Memory.lookup, h] using ih

theorem Memory.lookup_insert_other (m : Memory) (a i : Nat) (v : Byte) (h : i ≠ a) :
    (m.insert a v).lookup i = m.lookup i := by
  induction m with
  | nil => simp [Memory.insert, Memory.lookup, h]
  | cons cell rest ih =>
    obtain ⟨k, u⟩ := cell
    simp only [Memory.insert]
    split
    · simp [Memory.lookup, h]
    · split
      · next hk => subst hk; simp [Memory.lookup, h]
      · simp only [Memory.lookup, ih]

theorem Memory.risesFrom_insert (m : Memory) (low a : Nat) (v : Byte) (hl : low ≤ a)
    (h : Memory.risesFrom low m = true) : Memory.risesFrom low (m.insert a v) = true := by
  induction m generalizing low with
  | nil => simp [Memory.insert, Memory.risesFrom, hl]
  | cons cell rest ih =>
    obtain ⟨k, u⟩ := cell
    simp only [Memory.risesFrom, Bool.and_eq_true, decide_eq_true_eq] at h
    simp only [Memory.insert]
    split
    · simp [Memory.risesFrom, hl, h.2]; omega
    · split
      · next hk => subst hk; simp [Memory.risesFrom, hl, h.2]
      · simp only [Memory.risesFrom, Bool.and_eq_true, decide_eq_true_eq]
        exact ⟨h.1, ih (k + 1) (by omega) h.2⟩

theorem Memory.all_insert (m : Memory) (a : Nat) (v : Byte) (q : Host.Cell → Bool) (hq : q (a, v) = true)
    (h : m.all q = true) : (m.insert a v).all q = true := by
  induction m with
  | nil => simp [Memory.insert, hq]
  | cons cell rest ih =>
    obtain ⟨k, u⟩ := cell
    simp only [List.all_cons, Bool.and_eq_true] at h
    simp only [Memory.insert]
    split
    · simp_all
    · split
      · simp_all
      · simp_all

/-- A write keeps the canonical form. -/
theorem memWrite_wf {m m' : Memory} {a : Nat} {v : Byte} (hm : m.wf = true) (h : memWrite m a v = .ok m') :
    m'.wf = true := by
  unfold memWrite at h
  split at h
  · next ha =>
    cases h
    simp only [Memory.wf, Bool.and_eq_true] at hm ⊢
    exact ⟨Memory.risesFrom_insert m 0 a v (by omega) hm.1, Memory.all_insert m a v _ (by simpa using ha) hm.2⟩
  · cases h

theorem memWrite_ok {m : Memory} {a : Nat} (v : Byte) (h : a < Config.payloadMax) :
    memWrite m a v = .ok (m.insert a v) := by simp [memWrite, h]

/-- What a write answers: inside the buffer the new listing, outside it a fault. -/
theorem memWrite_cases {m m' : Memory} {a : Nat} {v : Byte} (h : memWrite m a v = .ok m') :
    a < Config.payloadMax ∧ m' = m.insert a v := by
  unfold memWrite at h
  split at h
  · next ha => cases h; exact ⟨ha, rfl⟩
  · cases h

theorem memRead_of_lookup {m : Memory} {a : Nat} {v : Byte} (h : a < Config.payloadMax)
    (hv : m.lookup a = some v) : memRead m a = .ok v := by simp [memRead, h, hv]

theorem lookup_of_memRead {m : Memory} {a : Nat} {v : Byte} (h : memRead m a = .ok v) : m.lookup a = some v := by
  unfold memRead at h
  split at h
  · split at h
    · next hv => cases h; exact hv
    · cases h
  · cases h

theorem memRead_insert_same (m : Memory) {a : Nat} (v : Byte) (h : a < Config.payloadMax) :
    memRead (m.insert a v) a = .ok v := memRead_of_lookup h (Memory.lookup_insert_same m a v)

theorem memRead_insert_other (m : Memory) {a i : Nat} (v : Byte) (h : i ≠ a) :
    memRead (m.insert a v) i = memRead m i := by
  unfold memRead
  rw [Memory.lookup_insert_other m a i v h]

/-- Reading a list: it answers `p` exactly when every byte of `p` can be read at its index. -/
theorem memReadList_eq_ok (m : Memory) (a n : Nat) (p : List Byte) :
    memReadList m a n = .ok p ↔ p.length = n ∧ ∀ i (h : i < p.length), memRead m (a + i) = .ok p[i] := by
  induction n generalizing a p with
  | zero => cases p <;> simp [memReadList]
  | succ n ih =>
    simp only [memReadList]
    constructor
    · intro h
      split at h
      · next v hv =>
        split at h
        · next rest hr =>
          cases h
          obtain ⟨hl, hi⟩ := (ih (a + 1) rest).mp hr
          refine ⟨by simp [hl], fun i hlt => ?_⟩
          cases i with
          | zero => simpa using hv
          | succ i =>
            have := hi i (by simpa using hlt)
            simpa [Nat.add_assoc, Nat.add_comm 1 i] using this
        · cases h
      · cases h
    · rintro ⟨hl, hi⟩
      match p, hl with
      | v :: rest, hl =>
        have h0 := hi 0 (by simp)
        have hr : memReadList m (a + 1) n = .ok rest := by
          refine (ih (a + 1) rest).mpr ⟨by simpa using hl, fun i hlt => ?_⟩
          have := hi (i + 1) (by simpa using hlt)
          simpa [Nat.add_assoc, Nat.add_comm 1 i] using this
        simp only [Nat.add_zero, List.getElem_cons_zero] at h0
        simp [h0, hr]

theorem Memory.holdsBelow_iff (m : Memory) (n : Nat) :
    m.holdsBelow n = true ↔ ∀ i, i < n → (m.lookup i).isSome = true := by
  induction n with
  | zero => simp [Memory.holdsBelow]
  | succ n ih =>
    simp only [Memory.holdsBelow, Bool.and_eq_true, ih]
    constructor
    · rintro ⟨h, hn⟩ i hi
      rcases Nat.lt_succ_iff_lt_or_eq.mp hi with h' | rfl
      · exact h i h'
      · exact hn
    · exact fun h => ⟨fun i hi => h i (by omega), h n (by omega)⟩

theorem Memory.holdsBelow_insert {m : Memory} {n : Nat} (v : Byte) (h : m.holdsBelow n = true) :
    (m.insert n v).holdsBelow (n + 1) = true := by
  rw [Memory.holdsBelow_iff] at h ⊢
  intro i hi
  by_cases hin : i = n
  · subst hin; simp [Memory.lookup_insert_same]
  · rw [Memory.lookup_insert_other m n i v hin]; exact h i (by omega)

/-- A list that has been written can be read. -/
theorem memReadList_of_holdsBelow {m : Memory} {n : Nat} (hn : n ≤ Config.payloadMax) (h : m.holdsBelow n = true) :
    ∃ p, memReadList m 0 n = .ok p := by
  rw [Memory.holdsBelow_iff] at h
  have key : ∀ k a, a + k ≤ n → ∃ p, memReadList m a k = .ok p := by
    intro k
    induction k with
    | zero => exact fun a _ => ⟨[], rfl⟩
    | succ k ih =>
      intro a hk
      obtain ⟨v, hv⟩ := Option.isSome_iff_exists.mp (h a (by omega))
      obtain ⟨rest, hr⟩ := ih (a + 1) (by omega)
      exact ⟨v :: rest, by simp [memReadList, memRead_of_lookup (by omega) hv, hr]⟩
  exact key n 0 (by omega)

end Sys2Proof.Machine
end

