-- ==== Sys2Proof/Laws/State.lean ====
section
/-! SUPPORT. The fields of State after each named update: one lemma per field per update, true by definition. -/

namespace Sys2Proof.Machine

section startMessage
variable (d : DecState)
@[simp] theorem startMessage_st : (startMessage d).st = d.st := rfl
@[simp] theorem startMessage_isResponse : (startMessage d).isResponse = false := rfl
@[simp] theorem startMessage_command : (startMessage d).command = 0#16 := rfl
@[simp] theorem startMessage_len : (startMessage d).len = 0#16 := rfl
@[simp] theorem startMessage_counter : (startMessage d).counter = 0#16 := rfl
@[simp] theorem startMessage_csum : (startMessage d).csum = 0#8 := rfl
@[simp] theorem startMessage_payload : (startMessage d).payload = d.payload := rfl
end startMessage

section decClear
variable (d : DecState)
@[simp] theorem decClear_st : (decClear d).st = .idle := rfl
@[simp] theorem decClear_isResponse : (decClear d).isResponse = false := rfl
@[simp] theorem decClear_command : (decClear d).command = 0#16 := rfl
@[simp] theorem decClear_len : (decClear d).len = 0#16 := rfl
@[simp] theorem decClear_counter : (decClear d).counter = 0#16 := rfl
@[simp] theorem decClear_csum : (decClear d).csum = 0#8 := rfl
@[simp] theorem decClear_payload : (decClear d).payload = d.payload := rfl
end decClear

section encClear
variable (e : EncState)
@[simp] theorem encClear_st : (encClear e).st = .encIdle := rfl
@[simp] theorem encClear_cmd : (encClear e).cmd = 0#8 := rfl
@[simp] theorem encClear_len : (encClear e).len = 0#8 := rfl
@[simp] theorem encClear_idx : (encClear e).idx = 0#8 := rfl
@[simp] theorem encClear_csum : (encClear e).csum = 0#8 := rfl
@[simp] theorem encClear_payload : (encClear e).payload = e.payload := rfl
end encClear

section encLoad
variable (c : Byte) (p : List Byte) (e : EncState)
@[simp] theorem encLoad_st : (encLoad c p e).st = .encSync := rfl
@[simp] theorem encLoad_cmd : (encLoad c p e).cmd = c := rfl
@[simp] theorem encLoad_len : (encLoad c p e).len = lengthByte p := rfl
@[simp] theorem encLoad_idx : (encLoad c p e).idx = 0#8 := rfl
@[simp] theorem encLoad_csum : (encLoad c p e).csum = 0#8 := rfl
@[simp] theorem encLoad_payload : (encLoad c p e).payload = p := rfl
end encLoad

section emitFrame
variable (c : Byte) (p : List Byte) (s : State)
@[simp] theorem emitFrame_dec : (emitFrame c p s).dec = s.dec := rfl
@[simp] theorem emitFrame_enc : (emitFrame c p s).enc = s.enc := rfl
@[simp] theorem emitFrame_xorAcc : (emitFrame c p s).xorAcc = s.xorAcc := rfl
@[simp] theorem emitFrame_crcAcc : (emitFrame c p s).crcAcc = s.crcAcc := rfl
@[simp] theorem emitFrame_decOut : (emitFrame c p s).decOut = s.decOut := rfl
@[simp] theorem emitFrame_encOut : (emitFrame c p s).encOut = s.encOut ++ legacyTxBytes c p := rfl
@[simp] theorem emitFrame_results : (emitFrame c p s).results = s.results := rfl
@[simp] theorem emitFrame_pending : (emitFrame c p s).pending = s.pending := rfl
end emitFrame

section placeWord
variable (s : State) (nbits w : Nat)
@[simp] theorem placeWord_pending : (placeWord s nbits w).pending = .op (tableRequest nbits w) :: s.pending := rfl
@[simp] theorem placeWord_st : (placeWord s nbits w).dec.st = tablePosition nbits w s.dec.st := rfl
@[simp] theorem placeWord_enc : (placeWord s nbits w).enc = s.enc := rfl
end placeWord

end Sys2Proof.Machine
end

