-- ==== Sys2Proof/Laws/Decoder.lean ====
section
/-! SUPPORT. What each shared decoder operation answers, `DEC.STEP` position by position (one equation per position, the
whole decode map), and what a step and a chunk keep. -/

namespace Sys2Proof.Machine

/-! ### The shared operations -/

theorem storePayload_ok (b csum : Byte) (stay leave : Pos) (d : DecState) (h : d.counter.toNat < Config.payloadMax) :
    storePayload b csum stay leave d =
      .ok ({ d with payload := d.payload.insert d.counter.toNat b, csum := csum, counter := d.counter + 1#16,
                    st := if d.counter + 1#16 = d.len then leave else stay }, none) := by
  simp [storePayload, memWrite_ok b h, payloadComplete]

theorem emitMessage_ok {d : DecState} {p : List Byte} (h : memReadList d.payload 0 d.len.toNat = .ok p) :
    emitMessage d = .ok ({ d with st := .idle }, some (.msg d.isResponse d.command p)) := by
  simp [emitMessage, h]

/-- Storing answers a next Decoder State only inside the buffer, and never an output. -/
theorem storePayload_cases {b csum : Byte} {stay leave : Pos} {d d' : DecState} {o : Option DecOutput}
    (h : storePayload b csum stay leave d = .ok (d', o)) :
    d.counter.toNat < Config.payloadMax ∧ o = none ∧
      d' = { d with payload := d.payload.insert d.counter.toNat b, csum := csum, counter := d.counter + 1#16,
                    st := if d.counter + 1#16 = d.len then leave else stay } := by
  by_cases hc : d.counter.toNat < Config.payloadMax
  · rw [storePayload_ok b csum stay leave d hc] at h
    cases h; exact ⟨hc, rfl, rfl⟩
  · simp [storePayload, memWrite, hc] at h

/-- Emitting answers a next Decoder State only when the payload can be read, and then with the message. -/
theorem emitMessage_cases {d d' : DecState} {o : Option DecOutput} (h : emitMessage d = .ok (d', o)) :
    ∃ p, memReadList d.payload 0 d.len.toNat = .ok p ∧ o = some (.msg d.isResponse d.command p) ∧
      d' = { d with st := .idle } := by
  unfold emitMessage at h
  split at h
  · next p hp => cases h; exact ⟨p, hp, rfl, rfl⟩
  · cases h

/-! ### `DEC.STEP`, one equation per position -/

section positions
variable {d : DecState} (b : Byte)

theorem decStep_idle (h : d.st = .idle) :
    decStep b d = if b = markSync then .ok ({ startMessage d with st := .awaitFormat }, none) else .ok (d, none) := by
  simp only [decStep, selectRow, h]; split <;> rfl

theorem decStep_awaitFormat (h : d.st = .awaitFormat) :
    decStep b d = .ok ({ d with st := if b = markLegacy then .awaitDirection
      else if b = markExt then .extAwaitDirection else .idle }, none) := by
  simp only [decStep, selectRow, h]; split
  · rfl
  · split <;> rfl

theorem decStep_awaitDirection (h : d.st = .awaitDirection) :
    decStep b d = if b = markReq then .ok ({ d with isResponse := false, st := .readLen }, none)
      else if b = markRsp then .ok ({ d with isResponse := true, st := .readLen }, none)
      else .ok ({ d with st := .idle }, none) := by
  simp only [decStep, selectRow, h]; split
  · rfl
  · split <;> rfl

theorem decStep_readLen (h : d.st = .readLen) :
    decStep b d = .ok ({ d with len := zext16 b, csum := b, st := .readCmd }, none) := by
  simp only [decStep, selectRow, h]; rfl

theorem decStep_readCmd (h : d.st = .readCmd) :
    decStep b d = .ok (beginPayload .readData .readCrc { d with command := zext16 b, csum := xor8 d.csum b }, none) := by
  simp only [decStep, selectRow, h]; rfl

theorem decStep_readData (h : d.st = .readData) :
    decStep b d = storePayload b (xor8 d.csum b) .readData .readCrc d := by
  simp only [decStep, selectRow, h]; rfl

theorem decStep_readCrc (h : d.st = .readCrc) :
    decStep b d = if b = d.csum then emitMessage d
      else .ok ({ d with st := .idle }, some (.checksumMismatch d.command)) := by
  simp only [decStep, selectRow, h]; split <;> rfl

theorem decStep_extAwaitDirection (h : d.st = .extAwaitDirection) :
    decStep b d = if b = markReq then .ok ({ d with isResponse := false, st := .extFlags }, none)
      else if b = markRsp then .ok ({ d with isResponse := true, st := .extFlags }, none)
      else .ok ({ d with st := .idle }, none) := by
  simp only [decStep, selectRow, h]; split
  · rfl
  · split <;> rfl

theorem decStep_extFlags (h : d.st = .extFlags) :
    decStep b d = .ok ({ d with csum := crc8 crcSeed b, st := .extIdLo }, none) := by
  simp only [decStep, selectRow, h]; rfl

theorem decStep_extIdLo (h : d.st = .extIdLo) :
    decStep b d = .ok ({ d with csum := crc8 d.csum b, command := zext16 b, st := .extIdHi }, none) := by
  simp only [decStep, selectRow, h]; rfl

theorem decStep_extIdHi (h : d.st = .extIdHi) :
    decStep b d =
      .ok ({ d with csum := crc8 d.csum b, command := assemble b (lowByte d.command), st := .extLenLo }, none) := by
  simp only [decStep, selectRow, h]; rfl

theorem decStep_extLenLo (h : d.st = .extLenLo) :
    decStep b d = .ok ({ d with csum := crc8 d.csum b, len := zext16 b, st := .extLenHi }, none) := by
  simp only [decStep, selectRow, h]; rfl

theorem decStep_extLenHi (h : d.st = .extLenHi) :
    decStep b d = .ok (beginPayload .extData .extChecksum
      { d with csum := crc8 d.csum b, len := assemble b (lowByte d.len) }, none) := by
  simp only [decStep, selectRow, h]; rfl

theorem decStep_extData (h : d.st = .extData) :
    decStep b d = storePayload b (crc8 d.csum b) .extData .extChecksum d := by
  simp only [decStep, selectRow, h]; rfl

theorem decStep_extChecksum (h : d.st = .extChecksum) :
    decStep b d = if b = d.csum then emitMessage d
      else .ok ({ d with st := .idle }, some (.checksumMismatch d.command)) := by
  simp only [decStep, selectRow, h]; split <;> rfl

end positions

/-! ### A chunk -/

@[simp] theorem decFeed_nil (d : DecState) : decFeed [] d = .ok (d, []) := rfl

/-- A chunk after a step that answers. -/
theorem decFeed_cons_ok {b : Byte} {d d' : DecState} {o : Option DecOutput} (rest : List Byte)
    (h : decStep b d = .ok (d', o)) :
    decFeed (b :: rest) d =
      match decFeed rest d' with
      | .ok (d'', outs) => .ok (d'', o.toList ++ outs)
      | .error f => .error f := by
  cases hr : decFeed rest d' <;> simp only [decFeed, h, hr]

/-- A chunk after a step without output is the rest of the chunk. -/
theorem decFeed_cons_silent {b : Byte} {d d' : DecState} (rest : List Byte) (h : decStep b d = .ok (d', none)) :
    decFeed (b :: rest) d = decFeed rest d' := by
  rw [decFeed_cons_ok rest h]
  cases decFeed rest d' with
  | error f => rfl
  | ok r => rfl

/-! ### What a step keeps -/

/-- A step of the decoder keeps the buffer's canonical form, from any state. -/
theorem decStep_wf {b : Byte} {d d' : DecState} {o : Option DecOutput} (hd : d.payload.wf = true)
    (h : decStep b d = .ok (d', o)) : d'.payload.wf = true := by
  have store : ∀ c stay leave, storePayload b c stay leave d = .ok (d', o) → d'.payload.wf = true := by
    intro c stay leave h
    obtain ⟨hc, -, rfl⟩ := storePayload_cases h
    exact memWrite_wf hd (memWrite_ok b hc)
  have emit : emitMessage d = .ok (d', o) → d'.payload.wf = true := by
    intro h
    obtain ⟨p, -, -, rfl⟩ := emitMessage_cases h
    exact hd
  cases hst : d.st
  case readData => exact store _ _ _ (decStep_readData b hst ▸ h)
  case extData => exact store _ _ _ (decStep_extData b hst ▸ h)
  case readCrc =>
    rw [decStep_readCrc b hst] at h
    split at h
    · exact emit h
    · cases h; exact hd
  case extChecksum =>
    rw [decStep_extChecksum b hst] at h
    split at h
    · exact emit h
    · cases h; exact hd
  case readCmd => rw [decStep_readCmd b hst] at h; cases h; simp only [beginPayload]; split <;> exact hd
  case extLenHi => rw [decStep_extLenHi b hst] at h; cases h; simp only [beginPayload]; split <;> exact hd
  case idle => rw [decStep_idle b hst] at h; split at h <;> cases h <;> exact hd
  case awaitFormat => rw [decStep_awaitFormat b hst] at h; cases h; exact hd
  case awaitDirection => rw [decStep_awaitDirection b hst] at h; split at h <;> [skip; split at h] <;> cases h <;> exact hd
  case extAwaitDirection =>
    rw [decStep_extAwaitDirection b hst] at h; split at h <;> [skip; split at h] <;> cases h <;> exact hd
  case readLen => rw [decStep_readLen b hst] at h; cases h; exact hd
  case extFlags => rw [decStep_extFlags b hst] at h; cases h; exact hd
  case extIdLo => rw [decStep_extIdLo b hst] at h; cases h; exact hd
  case extIdHi => rw [decStep_extIdHi b hst] at h; cases h; exact hd
  case extLenLo => rw [decStep_extLenLo b hst] at h; cases h; exact hd

/-- A chunk keeps the buffer's canonical form, from any state. -/
theorem decFeed_wf {bs : List Byte} {d d' : DecState} {outs : List DecOutput} (hd : d.payload.wf = true)
    (h : decFeed bs d = .ok (d', outs)) : d'.payload.wf = true := by
  induction bs generalizing d outs with
  | nil => cases h; exact hd
  | cons b rest ih =>
    cases hs : decStep b d with
    | error f => simp [decFeed, hs] at h
    | ok r =>
      obtain ⟨d1, o⟩ := r
      rw [decFeed_cons_ok rest hs] at h
      cases hr : decFeed rest d1 with
      | error f => simp [hr] at h
      | ok r2 =>
        obtain ⟨d2, outs2⟩ := r2
        simp only [hr] at h
        cases h
        exact ih (decStep_wf hd hs) hr

end Sys2Proof.Machine
end

