-- ==== Sys2Proof/Laws/Encoder.lean ====
section
/-! SUPPORT. What an encode request answers, and what one serialiser step does to the bytes still to come. -/

namespace Sys2Proof.Machine

section request
variable {again : Stimulus} {p : List Byte} {accept : State → State} {s t : State}

theorem encRequest_idle (hp : p.length ≤ Config.encPayloadMax) (hs : s.enc.st = .encIdle) :
    encRequest again p accept s = .next (accept s) := by simp [encRequest, hp, hs]

theorem encRequest_busy (hp : p.length ≤ Config.encPayloadMax) (hs : s.enc.st ≠ .encIdle) :
    encRequest again p accept s = stepSerialiser { s with pending := again :: s.pending } := by
  simp [encRequest, hp, hs]

theorem encRequest_oversize (hp : Config.encPayloadMax < p.length) :
    encRequest again p accept s = .refused .encodeOversize := by simp [encRequest]; omega

/-- A request that answers a next state was taken, or left first in line by one serialiser step. -/
theorem encRequest_cases (h : encRequest again p accept s = .next t) :
    p.length ≤ Config.encPayloadMax ∧
      ((s.enc.st = .encIdle ∧ t = accept s) ∨
        (s.enc.st ≠ .encIdle ∧ stepSerialiser { s with pending := again :: s.pending } = .next t)) := by
  by_cases hp : p.length ≤ Config.encPayloadMax
  · by_cases hs : s.enc.st = .encIdle
    · rw [encRequest_idle hp hs] at h; cases h; exact ⟨hp, .inl ⟨hs, rfl⟩⟩
    · rw [encRequest_busy hp hs] at h; exact ⟨hp, .inr ⟨hs, h⟩⟩
  · rw [encRequest_oversize (by omega)] at h; cases h

/-- A serialiser step changes only the encoder's registers and appends to `OUT`. -/
theorem stepSerialiser_cases (h : stepSerialiser s = .next t) :
    ∃ e o, encTick s.enc = .ok (e, o) ∧ t = { s with enc := e, encOut := s.encOut ++ o.toList } := by
  unfold stepSerialiser at h
  split at h
  · next e o he => cases h; exact ⟨e, o, he, rfl⟩
  · cases h

end request

theorem lengthByte_toNat {p : List Byte} (h : p.length ≤ Config.encPayloadMax) : (lengthByte p).toNat = p.length := by
  simp only [lengthByte, BitVec.toNat_ofNat]
  exact Nat.mod_eq_of_lt (by simp only [Config.encPayloadMax] at h; omega)

theorem legacyTxBytes_length (c : Byte) (p : List Byte) : (legacyTxBytes c p).length = 6 + p.length := by
  simp [legacyTxBytes]; omega

/-- The registers a request loads meet the serialiser's invariant. -/
theorem encLoad_inv (c : Byte) {p : List Byte} (e : EncState) (h : p.length ≤ Config.encPayloadMax) :
    (encLoad c p e).inv = true := by
  simp [EncState.inv, encLoad, lengthByte_toNat h]

end Sys2Proof.Machine
end

