-- ==== Sys2Proof/Laws/Invariant.lean ====
section
/-! SUPPORT. From a Decoder State that meets its invariant every byte is accepted and leads to one that meets it; the same of
the serialiser. -/

namespace Sys2Proof.Machine

theorem toNat_add_one {x : Half} (h : x.toNat < 65535) : (x + 1#16).toNat = x.toNat + 1 := by
  rw [BitVec.toNat_add]; simp; omega

theorem half_eq_of_toNat {x y : Half} (h : x.toNat = y.toNat) : x = y := BitVec.eq_of_toNat_eq h

theorem zext16_toNat_le (b : Byte) : (zext16 b).toNat ≤ 255 := by
  have := b.isLt
  simp [zext16]; omega

/-- A data byte below `len` keeps the invariant; `bound` is what the branch asks of `len` and `command`. -/
theorem storePayload_inv {d : DecState} (b csum : Byte) {stay leave : Pos} (hw : d.payload.wf = true)
    (hlt : d.counter.toNat < d.len.toNat) (hh : d.payload.holdsBelow d.counter.toNat = true) :
    ∃ d', storePayload b csum stay leave d = .ok (d', none) ∧ d'.payload.wf = true ∧ d'.len = d.len ∧
      d'.command = d.command ∧ d'.counter.toNat = d.counter.toNat + 1 ∧ d'.payload.holdsBelow d'.counter.toNat = true ∧
      ((d'.st = leave ∧ d'.counter = d'.len) ∨ (d'.st = stay ∧ d'.counter.toNat < d'.len.toNat)) := by
  have hl := d.len.isLt
  have hc : d.counter.toNat < Config.payloadMax := by simp only [Config.payloadMax]; omega
  have hn : (d.counter + 1#16).toNat = d.counter.toNat + 1 := toNat_add_one (by omega)
  refine ⟨_, storePayload_ok b csum stay leave d hc, memWrite_wf hw (memWrite_ok b hc), rfl, rfl, hn, ?_, ?_⟩
  · simp only [hn]; exact Memory.holdsBelow_insert b hh
  · by_cases he : d.counter + 1#16 = d.len
    · exact .inl ⟨by simp [he], he⟩
    · refine .inr ⟨by simp [he], ?_⟩
      have : (d.counter + 1#16).toNat ≠ d.len.toNat := fun h => he (half_eq_of_toNat h)
      show (d.counter + 1#16).toNat < d.len.toNat
      omega

/-- Every payload byte of a complete frame can be read. -/
theorem emitMessage_inv {d : DecState} (hw : d.payload.wf = true) (hc : d.counter.toNat ≤ d.len.toNat)
    (hh : d.payload.holdsBelow d.len.toNat = true) :
    ∃ d' o, emitMessage d = .ok (d', o) ∧ d'.inv = true := by
  have hl := d.len.isLt
  obtain ⟨p, hp⟩ := memReadList_of_holdsBelow (by simp only [Config.payloadMax]; omega) hh
  exact ⟨_, _, emitMessage_ok hp, by simp [DecState.inv, DecState.posInv, hw, hc]⟩

/-- `DEC.STEP` accepts every byte in every state that meets the invariant, and keeps it (R31, R32, R154). -/
theorem decStep_inv {d : DecState} (b : Byte) (h : d.inv = true) :
    ∃ d' o, decStep b d = .ok (d', o) ∧ d'.inv = true := by
  simp only [DecState.inv, Bool.and_eq_true, decide_eq_true_eq] at h
  obtain ⟨⟨hw, hle⟩, hp⟩ := h
  cases hst : d.st <;> simp only [DecState.posInv, hst, Bool.and_eq_true, decide_eq_true_eq, beq_iff_eq] at hp
  case idle =>
    rw [decStep_idle b hst]; split
    · exact ⟨_, _, rfl, by simp [DecState.inv, DecState.posInv, hw]⟩
    · exact ⟨_, _, rfl, by simp [DecState.inv, DecState.posInv, hw, hle, hst]⟩
  case awaitFormat =>
    rw [decStep_awaitFormat b hst]
    refine ⟨_, _, rfl, ?_⟩
    by_cases h1 : b = markLegacy
    · simp [DecState.inv, DecState.posInv, hw, hp, h1]
    · by_cases h2 : b = markExt
      · simp [DecState.inv, DecState.posInv, hw, hp, if_neg h1, if_pos h2]
      · simp [DecState.inv, DecState.posInv, hw, hp, if_neg h1, if_neg h2]
  case awaitDirection =>
    rw [decStep_awaitDirection b hst]; split <;> [skip; split] <;>
      exact ⟨_, _, rfl, by simp [DecState.inv, DecState.posInv, hw, hp]⟩
  case extAwaitDirection =>
    rw [decStep_extAwaitDirection b hst]; split <;> [skip; split] <;>
      exact ⟨_, _, rfl, by simp [DecState.inv, DecState.posInv, hw, hp]⟩
  case readLen =>
    exact ⟨_, _, decStep_readLen b hst, by simp [DecState.inv, DecState.posInv, hw, hp, zext16_toNat_le]⟩
  case readCmd =>
    refine ⟨_, _, decStep_readCmd b hst, ?_⟩
    by_cases hz : d.len = 0#16
    · simp [beginPayload, payloadEmpty, hz, DecState.inv, DecState.posInv, hw, hp, zext16_toNat_le, Memory.holdsBelow]
    · have : d.len.toNat ≠ 0 := fun h => hz (half_eq_of_toNat (by simpa using h))
      simp [beginPayload, payloadEmpty, hz, DecState.inv, DecState.posInv, hw, hp, zext16_toNat_le, Memory.holdsBelow]
      omega
  case extFlags => exact ⟨_, _, decStep_extFlags b hst, by simp [DecState.inv, DecState.posInv, hw, hp]⟩
  case extIdLo => exact ⟨_, _, decStep_extIdLo b hst, by simp [DecState.inv, DecState.posInv, hw, hp]⟩
  case extIdHi => exact ⟨_, _, decStep_extIdHi b hst, by simp [DecState.inv, DecState.posInv, hw, hp]⟩
  case extLenLo => exact ⟨_, _, decStep_extLenLo b hst, by simp [DecState.inv, DecState.posInv, hw, hp]⟩
  case extLenHi =>
    refine ⟨_, _, decStep_extLenHi b hst, ?_⟩
    generalize hn : assemble b (lowByte d.len) = n
    by_cases hz : n = 0#16
    · simp [beginPayload, payloadEmpty, hz, DecState.inv, DecState.posInv, hw, hp, Memory.holdsBelow]
    · have : n.toNat ≠ 0 := fun h => hz (half_eq_of_toNat (by simpa using h))
      simp [beginPayload, payloadEmpty, hz, DecState.inv, DecState.posInv, hw, Memory.holdsBelow]
      omega
  case readData =>
    obtain ⟨⟨⟨hlt, hl⟩, hcmd⟩, hh⟩ := hp
    obtain ⟨d', he, hw', e1, e2, e3, hh', hcase⟩ := storePayload_inv b (xor8 d.csum b) (stay := .readData)
      (leave := .readCrc) hw hlt hh
    refine ⟨d', none, by rw [decStep_readData b hst]; exact he, ?_⟩
    rcases hcase with ⟨hs, heq⟩ | ⟨hs, hlt'⟩
    · simp [DecState.inv, DecState.posInv, hs, hw', e2, hcmd, ← heq, hh']
      rw [heq, e1]; exact hl
    · simp [DecState.inv, DecState.posInv, hs, hw', e2, hcmd, hh']
      rw [e1] at hlt' ⊢; omega
  case extData =>
    obtain ⟨hlt, hh⟩ := hp
    obtain ⟨d', he, hw', e1, e2, e3, hh', hcase⟩ := storePayload_inv b (crc8 d.csum b) (stay := .extData)
      (leave := .extChecksum) hw hlt hh
    refine ⟨d', none, by rw [decStep_extData b hst]; exact he, ?_⟩
    rcases hcase with ⟨hs, heq⟩ | ⟨hs, hlt'⟩
    · simp [DecState.inv, DecState.posInv, hs, hw', ← heq, hh']
    · simp [DecState.inv, DecState.posInv, hs, hw', hh']; omega
  case readCrc =>
    rw [decStep_readCrc b hst]; split
    · exact emitMessage_inv hw hle hp.2
    · exact ⟨_, _, rfl, by simp [DecState.inv, DecState.posInv, hw, hle]⟩
  case extChecksum =>
    rw [decStep_extChecksum b hst]; split
    · exact emitMessage_inv hw hle hp.2
    · exact ⟨_, _, rfl, by simp [DecState.inv, DecState.posInv, hw, hle]⟩

/-- A chunk is accepted from every state that meets the invariant, and keeps it. -/
theorem decFeed_inv {d : DecState} (bs : List Byte) (h : d.inv = true) :
    ∃ d' outs, decFeed bs d = .ok (d', outs) ∧ d'.inv = true := by
  induction bs generalizing d with
  | nil => exact ⟨d, [], rfl, h⟩
  | cons b rest ih =>
    obtain ⟨d1, o, hs, h1⟩ := decStep_inv b h
    obtain ⟨d2, outs, hr, h2⟩ := ih h1
    exact ⟨d2, _, by rw [decFeed_cons_ok rest hs, hr], h2⟩

theorem decClear_inv {d : DecState} (h : d.inv = true) : (decClear d).inv = true := by
  simp only [DecState.inv, Bool.and_eq_true] at h
  simp [DecState.inv, DecState.posInv, h.1.1]

/-- A serialiser step answers from every state that meets the invariant, and keeps it (R126). -/
theorem encTick_inv {e : EncState} (h : e.inv = true) : ∃ e' o, encTick e = .ok (e', o) ∧ e'.inv = true := by
  have hl := e.len.isLt
  cases hst : e.st <;> simp only [EncState.inv, hst, Bool.and_eq_true, decide_eq_true_eq, beq_iff_eq] at h
  case encIdle => exact ⟨e, none, by simp [encTick, hst], by simp [EncState.inv, hst]⟩
  case encSync => exact ⟨_, _, by simp only [encTick, hst]; rfl, by simp [EncState.inv, h]⟩
  case encFmt => exact ⟨_, _, by simp only [encTick, hst]; rfl, by simp [EncState.inv, h]⟩
  case encDir => exact ⟨_, _, by simp only [encTick, hst]; rfl, by simp [EncState.inv, h]⟩
  case encLen => exact ⟨_, _, by simp only [encTick, hst]; rfl, by simp [EncState.inv, h, xor8]⟩
  case encCmd =>
    refine ⟨_, _, by simp only [encTick, hst]; rfl, ?_⟩
    by_cases hz : e.len = 0#8
    · have hp : e.payload = [] := List.length_eq_zero_iff.mp (by rw [h.1.1, hz]; rfl)
      simp [EncState.inv, h, hz, hp, legacyChecksum, xor8List, xorSeed, xor8]
    · have : e.len.toNat ≠ 0 := fun h => hz (BitVec.eq_of_toNat_eq (by simpa using h))
      simp [EncState.inv, h, hz, legacyChecksum, xor8List, xorSeed, xor8]
      omega
  case encData =>
    obtain ⟨⟨hp, hi⟩, hc⟩ := h
    have hlt : e.idx.toNat < e.payload.length := by omega
    have hget : e.payload[e.idx.toNat]? = some e.payload[e.idx.toNat] := List.getElem?_eq_getElem hlt
    have hn : (e.idx + 1#8).toNat = e.idx.toNat + 1 := by rw [BitVec.toNat_add]; simp; omega
    have hsum : xor8 e.csum e.payload[e.idx.toNat] =
        legacyChecksum e.len e.cmd (e.payload.take (e.idx.toNat + 1)) := by
      rw [hc, legacyChecksum_eq, legacyChecksum_eq, List.take_add_one, xor8List_append, hget]; rfl
    refine ⟨_, _, by simp only [encTick, hst, hget]; rfl, ?_⟩
    by_cases he : e.idx + 1#8 = e.len
    · have hfull : e.idx.toNat + 1 = e.payload.length := by rw [hp, ← he, hn]
      simp [EncState.inv, encComplete, he, hp, hsum, hfull, List.take_of_length_le (Nat.le_of_eq hp)]
    · have : e.idx.toNat + 1 ≠ e.len.toNat := fun h => he (BitVec.eq_of_toNat_eq (by omega))
      simp [EncState.inv, encComplete, he, hp, hsum, hn]
      omega
  case encCsum => exact ⟨_, _, by simp only [encTick, hst]; rfl, by simp [EncState.inv]⟩

end Sys2Proof.Machine
end

