-- ==== Sys2Proof/Laws/PerInstr.lean ====
section
/-! SUPPORT. One lemma per instruction: its word arrives at the interface of its row's format (30_encoding.md R54). -/

namespace Sys2Proof.Laws.FormatOfRow

open Sys2Proof

/-- The word of an instruction has the format spec/opcode_table.json gives the row. -/
def Statement (i : Instr) : Prop := (encode i).format = i.format

theorem idleSync : Statement (.idleSync) := rfl
theorem idleSkip (b : Byte) : Statement (.idleSkip b) := rfl
theorem fmtLegacy : Statement (.fmtLegacy) := rfl
theorem fmtExt : Statement (.fmtExt) := rfl
theorem fmtDesync (b : Byte) : Statement (.fmtDesync b) := rfl
theorem dirReq : Statement (.dirReq) := rfl
theorem dirRsp : Statement (.dirRsp) := rfl
theorem dirDesync (b : Byte) : Statement (.dirDesync b) := rfl
theorem len (b : Byte) : Statement (.len b) := rfl
theorem cmd (b : Byte) : Statement (.cmd b) := rfl
theorem data (b : Byte) : Statement (.data b) := rfl
theorem crcOk (b : Byte) : Statement (.crcOk b) := rfl
theorem crcBad (b : Byte) : Statement (.crcBad b) := rfl
theorem xdirReq : Statement (.xdirReq) := rfl
theorem xdirRsp : Statement (.xdirRsp) := rfl
theorem xdirDesync (b : Byte) : Statement (.xdirDesync b) := rfl
theorem xflags (b : Byte) : Statement (.xflags b) := rfl
theorem xidLo (b : Byte) : Statement (.xidLo b) := rfl
theorem xidHi (b : Byte) : Statement (.xidHi b) := rfl
theorem xlenLo (b : Byte) : Statement (.xlenLo b) := rfl
theorem xlenHi (b : Byte) : Statement (.xlenHi b) := rfl
theorem xdata (b : Byte) : Statement (.xdata b) := rfl
theorem xcrcOk (b : Byte) : Statement (.xcrcOk b) := rfl
theorem xcrcBad (b : Byte) : Statement (.xcrcBad b) := rfl
theorem xor8Update (acc b : Byte) : Statement (.xor8Update acc b) := rfl
theorem crc8Bit (c : Byte) : Statement (.crc8Bit c) := rfl
theorem crc8Update (crc b : Byte) : Statement (.crc8Update crc b) := rfl
theorem xor8Init : Statement (.xor8Init) := rfl
theorem xor8Step (b : Byte) : Statement (.xor8Step b) := rfl
theorem crc8Init : Statement (.crc8Init) := rfl
theorem crc8Step (b : Byte) : Statement (.crc8Step b) := rfl
theorem decStep (b : Byte) : Statement (.decStep b) := rfl
theorem decFeed (bytes : List Byte) : Statement (.decFeed bytes) := rfl
theorem decReset : Statement (.decReset) := rfl
theorem encReset : Statement (.encReset) := rfl
theorem encLegacy (cmd : Byte) (payload : List Byte) : Statement (.encLegacy cmd payload) := rfl
theorem frameLegacyRx (d n c : Byte) (payload : List Byte) (k : Byte) : Statement (.frameLegacyRx d n c payload k) := rfl
theorem frameExtRx (d f cl ch nl nh : Byte) (payload : List Byte) (k : Byte) : Statement (.frameExtRx d f cl ch nl nh payload k) := rfl
theorem frameLegacyTx (cmd : Byte) (payload : List Byte) : Statement (.frameLegacyTx cmd payload) := rfl
theorem variant : Statement (.variant) := rfl
theorem version : Statement (.version) := rfl
theorem reboot : Statement (.reboot) := rfl

end Sys2Proof.Laws.FormatOfRow
end

