-- ==== Sys2Proof/Laws/Step.lean ====
section
/-! SUPPORT. One equation of `step` per kind of stimulus, and what an outcome of a decoder operation is. -/

namespace Sys2Proof.Machine

section step
variable {s : State} {rest : List Stimulus}

theorem step_waiting (h : s.pending = []) : step s = stepSerialiser s := by simp [step, h, waitForHost]

theorem step_op {r : Request} {i : Instr} (h : s.pending = .op r :: rest)
    (hd : decode s.dec.st s.dec.csum r = .ok i) : step s = exec i { s with pending := rest } := by
  simp [step, h, hd]

theorem step_undecodable {r : Request} {e : DecodeError} (h : s.pending = .op r :: rest)
    (hd : decode s.dec.st s.dec.csum r = .error e) : step s = .refused (.undecodable e) := by
  simp [step, h, hd]

theorem step_rst {b : Option Byte} (h : s.pending = .rst b :: rest) :
    step s = resetBoth b { s with pending := rest } := by simp [step, h]

theorem step_encStart {c : Byte} {p : List Byte} (h : s.pending = .encStart c p :: rest) :
    step s = startSerialiser c p { s with pending := rest } := by simp [step, h]

theorem step_encTick (h : s.pending = .encTick :: rest) : step s = stepSerialiser { s with pending := rest } := by
  simp [step, h]

end step

/-- A run whose first step answers goes on from its next state. -/
theorem run_next {s t : State} (n : Nat) (h : step s = .next t) :
    Host.Core.run Sys2Proof.core (n + 1) s = Host.Core.run Sys2Proof.core n t := by
  have hc : Sys2Proof.core.step s = .next t := h
  simp only [Host.Core.run, hc]

/-- A committed decoder operation that answers a next state changes the Decoder State and appends its outputs. -/
theorem commitDec_cases {s t : State} {r : Except Fault (DecState × List DecOutput)} (h : commitDec s r = .next t) :
    ∃ d outs, r = .ok (d, outs) ∧ t = { s with dec := d, decOut := s.decOut ++ outs } := by
  cases r with
  | error f => cases h
  | ok p => obtain ⟨d, outs⟩ := p; cases h; exact ⟨d, outs, rfl, rfl⟩

theorem commitStep_cases {s t : State} {r : DecResult} (h : commitStep s r = .next t) :
    ∃ d o, r = .ok (d, o) ∧ t = { s with dec := d, decOut := s.decOut ++ o.toList } := by
  cases r with
  | error f => cases h
  | ok p => obtain ⟨d, o⟩ := p; cases h; exact ⟨d, o, rfl, rfl⟩

/-- A row that answers a next state was the one selected, and did its effect. -/
theorem runRow_cases {row : DecRow} {b : Byte} {effect : DecState → DecResult} {s t : State}
    (h : runRow row b effect s = .next t) :
    selectRow s.dec.st s.dec.csum b = row ∧
      ∃ d o, effect s.dec = .ok (d, o) ∧ t = { s with dec := d, decOut := s.decOut ++ o.toList } := by
  unfold runRow at h
  split at h
  · next hr => exact ⟨hr, commitStep_cases h⟩
  · cases h

/-- A row that is selected answers as `DEC.STEP` of its byte. -/
theorem runRow_selected {row : DecRow} {b : Byte} {effect : DecState → DecResult} {s : State}
    (h : selectRow s.dec.st s.dec.csum b = row) : runRow row b effect s = commitStep s (effect s.dec) := by
  simp [runRow, h]

/-- Every transmit row is an encode request of its command and payload; its own word is what waits (log entries 9 and 12). -/
theorem exec_frameTxRow (c : Byte) (p : List Byte) (s : State) :
    exec (frameTxRow c p) s = encRequest (.op (.frameTx (legacyTxBytes c p))) p (emitFrame c p) s := by
  unfold frameTxRow
  cases p with
  | cons x xs => rfl
  | nil =>
    simp only [List.isEmpty_nil, if_true]
    split_ifs with h1 h2 h3
    · subst h1; rfl
    · subst h2; rfl
    · subst h3; rfl
    · rfl

/-- An encode request is refused exactly for more than 255 payload bytes (R124). -/
theorem encRequest_refused {again : Stimulus} {p : List Byte} {accept : State → State} {s : State} {r : Refusal}
    (h : encRequest again p accept s = .refused r) : r = .encodeOversize ∧ Config.encPayloadMax < p.length := by
  by_cases hp : p.length ≤ Config.encPayloadMax
  · by_cases hs : s.enc.st = .encIdle
    · rw [encRequest_idle hp hs] at h; cases h
    · rw [encRequest_busy hp hs] at h; unfold stepSerialiser at h; split at h <;> cases h
  · rw [encRequest_oversize (by omega)] at h; cases h; exact ⟨rfl, by omega⟩

end Sys2Proof.Machine
end

