-- ==== Sys2Proof/Tests/Slice0.lean ====
section
/-! SUPPORT. Tests: ill-formed terms refused, words written out from the spec decoded, one step per operation with the expected
results of spec/95_test_vectors.md, and for every statement with hypotheses a state and operands that meet them. -/

namespace Sys2Proof.Tests

open Sys2Proof Sys2Proof.Machine

/-! ### Small states -/

/-- The reset state with the decoder at a position. -/
def at_ (st : Pos) : State := { State.reset with dec := { DecState.reset with st := st } }

/-- The decoder at a position with `len`, `counter`, `csum` and `command` set. -/
def inFrame (st : Pos) (len counter command : Half) (csum : Byte) : State :=
  { State.reset with dec := { DecState.reset with st := st, len := len, counter := counter, command := command, csum := csum } }

/-- The state of the example of R93: a response with command 5 and the payload 10 20. -/
def beforeCrc : State :=
  { State.reset with dec := { st := .readCrc, isResponse := true, command := 5#16, len := 2#16, counter := 2#16,
                              csum := 0x37#8, payload := [(0, 0x10#8), (1, 0x20#8)] } }

/-- The state of the example of R109: a response with command 0x1234 and the payload 01 02 03. -/
def beforeXcrc : State :=
  { State.reset with dec := { st := .extChecksum, isResponse := true, command := 0x1234#16, len := 3#16, counter := 3#16,
                              csum := 0x97#8, payload := [(0, 0x01#8), (1, 0x02#8), (2, 0x03#8)] } }

/-- The serialiser at a position, with the request VERSION of one payload byte. -/
def sending (st : EncPos) : State :=
  { State.reset with enc := { st := st, cmd := 0x03#8, len := 1#8, idx := 0#8, csum := 0#8, payload := [0xAA#8] } }

/-- The reset state with one thing presented. -/
def given (x : Stimulus) : State := { State.reset with pending := [x] }

/-- What an instruction leaves of the registers a test looks at. -/
def regs? (i : Instr) (s : State) : Option (Pos × Half × Half × Half × Byte) :=
  (nextState? (exec i s)).map fun t => (t.dec.st, t.dec.command, t.dec.len, t.dec.counter, t.dec.csum)

/-- What an instruction hands to the host. -/
def out? (i : Instr) (s : State) : Option (List DecOutput) := (nextState? (exec i s)).map State.decOut

/-- What an instruction sends. -/
def sent? (i : Instr) (s : State) : Option (List Byte) := (nextState? (exec i s)).map State.encOut

/-! ### Ill-formed terms are refused, well-formed ones accepted -/

theorem test_wf_catchAll : Instr.wf (.idleSkip 0x24#8) = false ∧ Instr.wf (.fmtDesync 0x4D#8) = false ∧
    Instr.wf (.fmtDesync 0x58#8) = false ∧ Instr.wf (.dirDesync 0x21#8) = false ∧ Instr.wf (.dirDesync 0x3E#8) = false ∧
    Instr.wf (.xdirDesync 0x21#8) = false ∧ Instr.wf (.xdirDesync 0x3E#8) = false := by decide
theorem test_wf_frameLengths : Instr.wf (.frameLegacyRx 0x3E#8 0x02#8 0x05#8 [0x10#8] 0x37#8) = false ∧
    Instr.wf (.frameExtRx 0x3E#8 0x00#8 0x34#8 0x12#8 0x01#8 0x01#8 [0x10#8] 0x00#8) = false ∧
    Instr.wf (.frameLegacyTx 0x02#8 []) = false ∧ Instr.wf (.frameLegacyTx 0x03#8 []) = false ∧
    Instr.wf (.frameLegacyTx 0x44#8 []) = false := by decide
theorem test_wf_oversize (b : Byte) : Instr.wf (.encLegacy 0x05#8 (List.replicate 256 b)) = false ∧
    Instr.wf (.frameLegacyTx 0x05#8 (List.replicate 256 b)) = false := by
  constructor <;> rw [Instr.wf, List.length_replicate] <;> rfl
theorem test_wf_accepts : Instr.wf (.idleSkip 0x4D#8) = true ∧ Instr.wf (.fmtDesync 0x24#8) = true ∧
    Instr.wf (.dirDesync 0x3C#8) = true ∧ Instr.wf (.xdirDesync 0x3C#8) = true ∧
    Instr.wf (.frameLegacyRx 0x3C#8 0x02#8 0x05#8 [0x10#8, 0x20#8] 0x00#8) = true ∧
    Instr.wf (.frameLegacyTx 0x02#8 [0x00#8]) = true := by decide

/-! ### Every constructor's word, written out from R46 to R48, R50, R53 and R129 -/

theorem test_decode_shared : decode .idle 0x00#8 (.decByte 0b00100100#8) = .ok .idleSync ∧
    decode .idle 0x00#8 (.decByte 0b01001101#8) = .ok (.idleSkip 0x4D#8) ∧
    decode .awaitFormat 0x00#8 (.decByte 0b01001101#8) = .ok .fmtLegacy ∧
    decode .awaitFormat 0x00#8 (.decByte 0b01011000#8) = .ok .fmtExt ∧
    decode .awaitFormat 0x00#8 (.decByte 0b01101101#8) = .ok (.fmtDesync 0x6D#8) := by decide
theorem test_decode_legacy : decode .awaitDirection 0x00#8 (.decByte 0b00100001#8) = .ok .dirReq ∧
    decode .awaitDirection 0x00#8 (.decByte 0b00111110#8) = .ok .dirRsp ∧
    decode .awaitDirection 0x00#8 (.decByte 0b00111100#8) = .ok (.dirDesync 0x3C#8) ∧
    decode .readLen 0x00#8 (.decByte 0b00000010#8) = .ok (.len 0x02#8) ∧
    decode .readCmd 0x00#8 (.decByte 0b00000101#8) = .ok (.cmd 0x05#8) ∧
    decode .readData 0x00#8 (.decByte 0b00100100#8) = .ok (.data 0x24#8) ∧
    decode .readCrc 0x37#8 (.decByte 0b00110111#8) = .ok (.crcOk 0x37#8) ∧
    decode .readCrc 0x37#8 (.decByte 0b00110110#8) = .ok (.crcBad 0x36#8) := by decide
theorem test_decode_extended : decode .extAwaitDirection 0x00#8 (.decByte 0b00100001#8) = .ok .xdirReq ∧
    decode .extAwaitDirection 0x00#8 (.decByte 0b00111110#8) = .ok .xdirRsp ∧
    decode .extAwaitDirection 0x00#8 (.decByte 0b00100100#8) = .ok (.xdirDesync 0x24#8) ∧
    decode .extFlags 0x00#8 (.decByte 0b10100101#8) = .ok (.xflags 0xA5#8) ∧
    decode .extIdLo 0x00#8 (.decByte 0b00110100#8) = .ok (.xidLo 0x34#8) ∧
    decode .extIdHi 0x00#8 (.decByte 0b00010010#8) = .ok (.xidHi 0x12#8) ∧
    decode .extLenLo 0x00#8 (.decByte 0b00000011#8) = .ok (.xlenLo 0x03#8) ∧
    decode .extLenHi 0x00#8 (.decByte 0b00000001#8) = .ok (.xlenHi 0x01#8) ∧
    decode .extData 0x00#8 (.decByte 0b00100100#8) = .ok (.xdata 0x24#8) ∧
    decode .extChecksum 0x97#8 (.decByte 0b10010111#8) = .ok (.xcrcOk 0x97#8) ∧
    decode .extChecksum 0x97#8 (.decByte 0b10010110#8) = .ok (.xcrcBad 0x96#8) := by decide
theorem test_decode_calls : decode .idle 0x00#8 (.xor8Update 0x02#8 0x05#8) = .ok (.xor8Update 0x02#8 0x05#8) ∧
    decode .idle 0x00#8 (.crc8Bit 0x80#8) = .ok (.crc8Bit 0x80#8) ∧
    decode .idle 0x00#8 (.crc8Update 0x00#8 0x64#8) = .ok (.crc8Update 0x00#8 0x64#8) ∧
    decode .idle 0x00#8 .xor8Init = .ok .xor8Init ∧ decode .idle 0x00#8 (.xor8Step 0x02#8) = .ok (.xor8Step 0x02#8) ∧
    decode .idle 0x00#8 .crc8Init = .ok .crc8Init ∧ decode .idle 0x00#8 (.crc8Step 0x64#8) = .ok (.crc8Step 0x64#8) := by decide
theorem test_decode_hostOps : decode .readData 0x00#8 (.decStep 0x24#8) = .ok (.decStep 0x24#8) ∧
    decode .readData 0x00#8 (.decFeed [0x24#8, 0x4D#8]) = .ok (.decFeed [0x24#8, 0x4D#8]) ∧
    decode .readData 0x00#8 .decReset = .ok .decReset ∧ decode .readData 0x00#8 .encReset = .ok .encReset ∧
    decode .readData 0x00#8 (.encLegacy 0x44#8 []) = .ok (.encLegacy 0x44#8 []) := by decide
theorem test_decode_frames : decode .idle 0x00#8 (.frameRx [0x24#8, 0x4D#8, 0x3E#8, 0x02#8, 0x05#8, 0x10#8, 0x20#8, 0x37#8]) =
      .ok (.frameLegacyRx 0x3E#8 0x02#8 0x05#8 [0x10#8, 0x20#8] 0x37#8) ∧
    decode .idle 0x00#8 (.frameRx [0x24#8, 0x58#8, 0x3E#8, 0x00#8, 0x34#8, 0x12#8, 0x01#8, 0x00#8, 0xAA#8, 0x97#8]) =
      .ok (.frameExtRx 0x3E#8 0x00#8 0x34#8 0x12#8 0x01#8 0x00#8 [0xAA#8] 0x97#8) ∧
    decode .idle 0x00#8 (.frameTx [0x24#8, 0x4D#8, 0x3C#8, 0x02#8, 0x05#8, 0xAA#8, 0x55#8, 0xF8#8]) =
      .ok (.frameLegacyTx 0x05#8 [0xAA#8, 0x55#8]) ∧
    decode .idle 0x00#8 (.frameTx [0x24#8, 0x4D#8, 0x3C#8, 0x00#8, 0x02#8, 0x02#8]) = .ok .variant ∧
    decode .idle 0x00#8 (.frameTx [0x24#8, 0x4D#8, 0x3C#8, 0x00#8, 0x03#8, 0x03#8]) = .ok .version ∧
    decode .idle 0x00#8 (.frameTx [0x24#8, 0x4D#8, 0x3C#8, 0x00#8, 0x44#8, 0x44#8]) = .ok .reboot := by decide
theorem test_decode_rejects : decode .idle 0x00#8 (.frameRx [0x25#8, 0x4D#8]) = .error .badSync ∧
    decode .idle 0x00#8 (.frameRx [0x24#8, 0x4E#8]) = .error .badFormat ∧
    decode .idle 0x00#8 (.frameRx [0x24#8, 0x4D#8, 0x3E#8, 0x01#8, 0x05#8, 0x10#8]) = .error .truncated ∧
    decode .idle 0x00#8 (.frameRx [0x24#8, 0x4D#8, 0x3E#8, 0x00#8, 0x05#8, 0x05#8, 0x00#8]) = .error .trailing ∧
    decode .idle 0x00#8 (.frameTx [0x24#8, 0x4D#8, 0x3E#8, 0x00#8, 0x44#8, 0x44#8]) = .error .badDirection ∧
    decode .idle 0x00#8 (.frameTx [0x24#8, 0x4D#8, 0x3C#8, 0x00#8, 0x44#8, 0x45#8]) = .error .badChecksum := by decide

/-! ### The host's numbering of a row's word (log entry 2) -/

theorem test_tableWord_bytes : decodeTableWord 8 0x24 = some .idleSync ∧ decodeTableWord 8 0x4D = some .fmtLegacy ∧
    decodeTableWord 8 0x3E = some .dirRsp ∧ decodeTableWord 8 0x00 = some (.idleSkip 0x00#8) ∧
    decodeTableWord 0 0 = none := by decide
theorem test_tableWord_frames : decodeTableWord 40 0x244D3E0005 = some (.frameLegacyRx 0x3E#8 0x00#8 0x05#8 [] 0x00#8) ∧
    decodeTableWord 40 0x05003E4D24 = none ∧
    decodeTableWord 64 0x24583E0034120000 = some (.frameExtRx 0x3E#8 0x00#8 0x34#8 0x12#8 0x00#8 0x00#8 [] 0x00#8) ∧
    decodeTableWord 40 0x244D3C0000 = some (.frameLegacyTx 0x00#8 []) ∧
    decodeTableWord 40 0x244D3C0005 = some (.frameLegacyTx 0x05#8 []) ∧
    decodeTableWord 40 0x244D3C0205 = some (.frameLegacyTx 0x05#8 [0x00#8, 0x00#8]) ∧
    decodeTableWord 48 0x244D3C004445 = none ∧
    decodeTableWord 48 0x244D3C004444 = some .reboot := by decide
theorem test_withFetchWord : (nextState? (step (State.reset.withFetchWord 8 0x4D))).map (fun t => t.dec.st) =
      some .awaitDirection ∧
    (nextState? (step (State.reset.withFetchWord 48 0x244D3C004444))).map State.encOut =
      some [0x24#8, 0x4D#8, 0x3C#8, 0x00#8, 0x44#8, 0x44#8] := by decide

/-! ### One step per operation: spec/95_test_vectors.md section 3 (decoder), V1 to V5 (engines), E1 to E9 and R130 (encoder) -/

theorem test_idleSync : regs? .idleSync (inFrame .idle 3#16 3#16 0x1234#16 0x97#8) =
    some (.awaitFormat, 0#16, 0#16, 0#16, 0x00#8) := by decide
theorem test_idleSkip : regs? (.idleSkip 0x4D#8) (inFrame .idle 3#16 3#16 0x1234#16 0x97#8) =
    some (.idle, 0x1234#16, 3#16, 3#16, 0x97#8) := by decide
theorem test_fmtLegacy : (regs? .fmtLegacy (at_ .awaitFormat)).map (fun r => r.1) = some .awaitDirection := by decide
theorem test_fmtExt : (regs? .fmtExt (at_ .awaitFormat)).map (fun r => r.1) = some .extAwaitDirection := by decide
theorem test_fmtDesync : (regs? (.fmtDesync 0x24#8) (at_ .awaitFormat)).map (fun r => r.1) = some .idle ∧
    out? (.fmtDesync 0x24#8) (at_ .awaitFormat) = some [] := by decide
theorem test_dirReq : (nextState? (exec .dirReq (at_ .awaitDirection))).map (fun t => (t.dec.st, t.dec.isResponse)) =
    some (.readLen, false) := by decide
theorem test_dirRsp : (nextState? (exec .dirRsp (at_ .awaitDirection))).map (fun t => (t.dec.st, t.dec.isResponse)) =
    some (.readLen, true) := by decide
theorem test_dirDesync : (regs? (.dirDesync 0x3C#8) (at_ .awaitDirection)).map (fun r => r.1) = some .idle := by decide
theorem test_len : regs? (.len 0x02#8) (inFrame .readLen 0#16 0#16 0#16 0x55#8) =
    some (.readCmd, 0#16, 2#16, 0#16, 0x02#8) := by decide
theorem test_cmd_empty : regs? (.cmd 0x44#8) (inFrame .readCmd 0#16 0#16 0#16 0x00#8) =
    some (.readCrc, 0x44#16, 0#16, 0#16, 0x44#8) := by decide
theorem test_cmd_payload : regs? (.cmd 0x05#8) (inFrame .readCmd 2#16 9#16 0#16 0x02#8) =
    some (.readData, 5#16, 2#16, 0#16, 0x07#8) := by decide
theorem test_data : regs? (.data 0x10#8) (inFrame .readData 2#16 0#16 5#16 0x07#8) =
    some (.readData, 5#16, 2#16, 1#16, 0x17#8) := by decide
theorem test_data_last : regs? (.data 0x24#8) (inFrame .readData 1#16 0#16 5#16 0x06#8) =
      some (.readCrc, 5#16, 1#16, 1#16, 0x22#8) ∧
    (nextState? (exec (.data 0x24#8) (inFrame .readData 1#16 0#16 5#16 0x06#8))).map (fun t => t.dec.payload) =
      some [(0, 0x24#8)] := by decide
theorem test_crcOk : out? (.crcOk 0x37#8) beforeCrc = some [.msg true 5#16 [0x10#8, 0x20#8]] ∧
    regs? (.crcOk 0x37#8) beforeCrc = some (.idle, 5#16, 2#16, 2#16, 0x37#8) := by decide
theorem test_crcBad : out? (.crcBad 0x24#8) beforeCrc = some [.checksumMismatch 5#16] ∧
    regs? (.crcBad 0x24#8) beforeCrc = some (.idle, 5#16, 2#16, 2#16, 0x37#8) := by decide
theorem test_xdirReq : (nextState? (exec .xdirReq (at_ .extAwaitDirection))).map (fun t => (t.dec.st, t.dec.isResponse)) =
    some (.extFlags, false) := by decide
theorem test_xdirRsp : (nextState? (exec .xdirRsp (at_ .extAwaitDirection))).map (fun t => (t.dec.st, t.dec.isResponse)) =
    some (.extFlags, true) := by decide
theorem test_xdirDesync : (regs? (.xdirDesync 0x3C#8) (at_ .extAwaitDirection)).map (fun r => r.1) = some .idle := by decide
theorem test_xflags : regs? (.xflags 0xA5#8) (inFrame .extFlags 0#16 0#16 0#16 0x77#8) =
    some (.extIdLo, 0#16, 0#16, 0#16, 0x60#8) := by decide
theorem test_xidLo : regs? (.xidLo 0x34#8) (inFrame .extIdLo 0#16 0#16 0xBEEF#16 0x00#8) =
    some (.extIdHi, 0x0034#16, 0#16, 0#16, 0x08#8) := by decide
theorem test_xidHi : regs? (.xidHi 0x12#8) (inFrame .extIdHi 0#16 0#16 0x0034#16 0x08#8) =
    some (.extLenLo, 0x1234#16, 0#16, 0#16, 0x04#8) := by decide
theorem test_xlenLo : regs? (.xlenLo 0x03#8) (inFrame .extLenLo 0#16 0#16 0x1234#16 0x04#8) =
    some (.extLenHi, 0x1234#16, 3#16, 0#16, 0x54#8) := by decide
theorem test_xlenHi : regs? (.xlenHi 0x00#8) (inFrame .extLenHi 3#16 0#16 0x1234#16 0x54#8) =
    some (.extData, 0x1234#16, 3#16, 0#16, 0x31#8) := by decide
theorem test_xlenHi_zero : regs? (.xlenHi 0x00#8) (inFrame .extLenHi 0#16 0#16 0x0064#16 0x25#8) =
    some (.extChecksum, 0x0064#16, 0#16, 0#16, 0x8F#8) := by decide
theorem test_xdata : regs? (.xdata 0x03#8) (inFrame .extData 3#16 2#16 0x1234#16 0x7A#8) =
    some (.extChecksum, 0x1234#16, 3#16, 3#16, 0x97#8) := by decide
theorem test_xdata_longest : regs? (.xdata 0x00#8) (inFrame .extData 0xFFFF#16 0xFFFE#16 0#16 0x00#8) =
    some (.extChecksum, 0#16, 0xFFFF#16, 0xFFFF#16, 0x00#8) := by decide
theorem test_xcrcOk : out? (.xcrcOk 0x97#8) beforeXcrc = some [.msg true 0x1234#16 [0x01#8, 0x02#8, 0x03#8]] := by decide
theorem test_xcrcBad : out? (.xcrcBad 0x96#8) beforeXcrc = some [.checksumMismatch 0x1234#16] := by decide

theorem test_xor8Update : xor8 0xFF#8 0x0F#8 = 0xF0#8 ∧
    (nextState? (exec (.xor8Update 0x02#8 0x05#8) State.reset)).map State.results = some [0x07#8] := by decide
theorem test_crc8Bit : crc8Bit 0x80#8 = 0xD5#8 ∧ crc8Bit 0x7F#8 = 0xFE#8 ∧ crc8Bit 0xFF#8 = 0x2B#8 ∧
    (nextState? (exec (.crc8Bit 0xD5#8) State.reset)).map State.results = some [0x7F#8] := by decide
theorem test_crc8Update : crc8 0x00#8 0x80#8 = 0xEF#8 ∧ crc8 0xFF#8 0x00#8 = 0xF9#8 ∧ crc8 0x12#8 0x34#8 = 0x25#8 ∧
    (nextState? (exec (.crc8Update 0x00#8 0x64#8) State.reset)).map State.results = some [0xC7#8] := by decide
theorem test_crc8_checkValue : crc8List 0x00#8
    [0x31#8, 0x32#8, 0x33#8, 0x34#8, 0x35#8, 0x36#8, 0x37#8, 0x38#8, 0x39#8] = 0xBC#8 := by decide +kernel
theorem test_xor8Init : (nextState? (exec .xor8Init { State.reset with xorAcc := 0x5A#8 })).map State.xorAcc = some 0x00#8 := by
  decide
theorem test_xor8Step : (nextState? (exec (.xor8Step 0x20#8) { State.reset with xorAcc := 0x17#8 })).map State.xorAcc =
    some 0x37#8 := by decide
theorem test_crc8Init : (nextState? (exec .crc8Init { State.reset with crcAcc := 0x5A#8 })).map State.crcAcc = some 0x00#8 := by
  decide
theorem test_crc8Step : (nextState? (exec (.crc8Step 0x8F#8) { State.reset with crcAcc := 0x8F#8 })).map State.crcAcc =
    some 0x00#8 := by decide

theorem test_decStep : out? (.decStep 0x37#8) beforeCrc = some [.msg true 5#16 [0x10#8, 0x20#8]] := by decide
theorem test_decFeed_twoFrames : out? (.decFeed [0x24#8, 0x4D#8, 0x3E#8, 0x00#8, 0x07#8, 0x07#8,
    0x24#8, 0x4D#8, 0x21#8, 0x00#8, 0x08#8, 0x08#8]) State.reset = some [.msg true 7#16 [], .msg false 8#16 []] := by decide
theorem test_decFeed_ownFrameDropped : out? (.decFeed [0x24#8, 0x4D#8, 0x3C#8, 0x00#8, 0x44#8, 0x44#8]) State.reset =
    some [] := by decide
theorem test_decReset : regs? .decReset (inFrame .readData 2#16 1#16 5#16 0x17#8) =
    some (.idle, 0#16, 0#16, 0#16, 0x00#8) := by decide
theorem test_encReset : (nextState? (exec .encReset (sending .encData))).map (fun t => (t.enc.st, t.enc.cmd, t.enc.len)) =
    some (.encIdle, 0#8, 0#8) := by decide
theorem test_encLegacy : sent? (.encLegacy 0x05#8 [0xAA#8, 0x55#8]) State.reset =
      some [0x24#8, 0x4D#8, 0x3C#8, 0x02#8, 0x05#8, 0xAA#8, 0x55#8, 0xF8#8] ∧
    sent? (.encLegacy 0x24#8 [0x24#8]) State.reset =
      some [0x24#8, 0x4D#8, 0x3C#8, 0x01#8, 0x24#8, 0x24#8, 0x01#8] := by decide
theorem test_encStart_waits : (nextState? (step { sending .encFmt with pending := [.encStart 0x44#8 []] })).map
    (fun t => (t.encOut, t.enc.st, t.pending)) = some ([0x4D#8], .encDir, [.encStart 0x44#8 []]) := by decide
theorem test_encLegacy_waits : (nextState? (exec (.encLegacy 0x44#8 []) (sending .encSync))).map
    (fun t => (t.encOut, t.enc.st, t.pending)) = some ([0x24#8], .encFmt, [.op (.encLegacy 0x44#8 [])]) := by decide
theorem test_frameLegacyRx : out? (.frameLegacyRx 0x3E#8 0x02#8 0x24#8 [0x24#8, 0x4D#8] 0x4F#8) State.reset =
      some [.msg true 0x24#16 [0x24#8, 0x4D#8]] ∧
    out? (.frameLegacyRx 0x3E#8 0x02#8 0x05#8 [0x10#8, 0x20#8] 0x36#8) State.reset = some [.checksumMismatch 5#16] := by decide
theorem test_frameExtRx : out? (.frameExtRx 0x3E#8 0x00#8 0x34#8 0x12#8 0x03#8 0x00#8 [0x01#8, 0x02#8, 0x03#8] 0x97#8)
      State.reset = some [.msg true 0x1234#16 [0x01#8, 0x02#8, 0x03#8]] ∧
    out? (.frameExtRx 0x21#8 0x00#8 0x64#8 0x00#8 0x00#8 0x00#8 [] 0x8F#8) State.reset = some [.msg false 0x64#16 []] := by
  decide +kernel
theorem test_frameLegacyTx : sent? (.frameLegacyTx 0x10#8 [0x01#8, 0x02#8, 0x03#8, 0x04#8]) State.reset =
    some [0x24#8, 0x4D#8, 0x3C#8, 0x04#8, 0x10#8, 0x01#8, 0x02#8, 0x03#8, 0x04#8, 0x10#8] := by decide
theorem test_pseudo : sent? .variant State.reset = some [0x24#8, 0x4D#8, 0x3C#8, 0x00#8, 0x02#8, 0x02#8] ∧
    sent? .version State.reset = some [0x24#8, 0x4D#8, 0x3C#8, 0x00#8, 0x03#8, 0x03#8] ∧
    sent? .reboot State.reset = some [0x24#8, 0x4D#8, 0x3C#8, 0x00#8, 0x44#8, 0x44#8] := by decide

/-! ### For every statement with hypotheses, states and operands that meet them, clause by clause -/

theorem witness_ResetWinsOverByte : (given (.rst (some 0x24#8))).pending = .rst (some 0x24#8) :: [] ∧
    (given (.rst none)).pending = .rst none :: [] := by decide
theorem witness_WaitingChangesNothing : State.reset.pending = [] ∧ State.reset.enc.st = .encIdle ∧
    (nextState? (step State.reset)).isSome = true ∧ (sending .encSync).pending = [] ∧
    (nextState? (step (sending .encSync))).isSome = true := by decide
theorem witness_StepRunsDecodedInstruction : (given (.op (.decByte 0x24#8))).pending = .op (.decByte 0x24#8) :: [] ∧
    decode (given (.op (.decByte 0x24#8))).dec.st 0x00#8 (.decByte 0x24#8) = .ok .idleSync ∧
    (given (.op (.frameRx []))).pending = .op (.frameRx []) :: [] ∧
    decode (given (.op (.frameRx []))).dec.st 0x00#8 (.frameRx []) = .error .truncated := by decide
theorem witness_DecodeMapIsExact : (⟨.crcOk, 6, 0x00, 0x00, 0, .equalsCsum⟩ : TableRow) ∈ decodeTable ∧
    TableRow.applies ⟨.crcOk, 6, 0x00, 0x00, 0, .equalsCsum⟩ .readCrc 0x37#8 0x37#8 = true := by decide
theorem witness_DecodeOfEncode : Instr.wf (.idleSkip 0x4D#8) = true ∧ Instr.context (.idleSkip 0x4D#8) .idle 0x00#8 = true ∧
    Instr.wf (.crcOk 0x37#8) = true ∧ Instr.context (.crcOk 0x37#8) .readCrc 0x37#8 = true ∧
    Instr.wf (.frameLegacyTx 0x02#8 [0x00#8]) = true ∧
    Instr.context (.frameLegacyTx 0x02#8 [0x00#8]) .idle 0x00#8 = true := by decide
theorem witness_EncodeOfDecode : decode .idle 0x00#8 (.decByte 0x24#8) = .ok .idleSync ∧
    decode .idle 0x00#8 (.frameTx [0x24#8, 0x4D#8, 0x3C#8, 0x00#8, 0x44#8, 0x44#8]) = .ok .reboot := by decide
theorem witness_RowsRunOnlyWhereSelected : Instr.row? (.crcOk 0x37#8) = some .crcOk ∧
    Instr.context (.crcOk 0x37#8) beforeCrc.dec.st beforeCrc.dec.csum = true ∧
    Instr.context (.crcOk 0x36#8) beforeCrc.dec.st beforeCrc.dec.csum = false := by decide
theorem witness_IdleSyncStartsMessage : (inFrame .idle 3#16 3#16 0x1234#16 0x97#8).dec.st = .idle := by decide
theorem witness_IdleSkipChangesNothing : (at_ .idle).dec.st = .idle ∧ (0x25#8 : Byte) ≠ 0x24#8 := by decide
theorem witness_FormatMarkersSelectBranch : (at_ .awaitFormat).dec.st = .awaitFormat := by decide
theorem witness_DesyncFallsBackSilently : ((at_ .awaitFormat).dec.st = .awaitFormat ∧
      (0x4C#8 : Byte) ≠ 0x4D#8 ∧ (0x4C#8 : Byte) ≠ 0x58#8) ∧
    ((at_ .awaitDirection).dec.st = .awaitDirection ∧ (0x3C#8 : Byte) ≠ 0x21#8 ∧ (0x3C#8 : Byte) ≠ 0x3E#8) ∧
    ((at_ .extAwaitDirection).dec.st = .extAwaitDirection ∧ (0x3F#8 : Byte) ≠ 0x21#8 ∧ (0x3F#8 : Byte) ≠ 0x3E#8) := by decide
theorem witness_DirectionMarkersSetResponse : (at_ .awaitDirection).dec.st = .awaitDirection ∧
    (at_ .extAwaitDirection).dec.st = .extAwaitDirection := by decide
theorem witness_LengthByteLoads : (at_ .readLen).dec.st = .readLen := by decide
theorem witness_CommandByteBranchesOnLength : (inFrame .readCmd 0#16 0#16 0#16 0x00#8).dec.st = .readCmd ∧
    (inFrame .readCmd 0#16 0#16 0#16 0x00#8).dec.len = 0#16 ∧
    (inFrame .readCmd 1#16 0#16 0#16 0x01#8).dec.st = .readCmd ∧
    (inFrame .readCmd 1#16 0#16 0#16 0x01#8).dec.len ≠ 0#16 := by decide
theorem witness_DataByteStoresAndCounts : (inFrame .readData 255#16 254#16 0#16 0x00#8).dec.st = .readData ∧
    (inFrame .readData 255#16 254#16 0#16 0x00#8).dec.counter.toNat < 65535 := by decide
theorem witness_ExtDataByteStoresAndCounts : (inFrame .extData 0xFFFF#16 0xFFFE#16 0#16 0x00#8).dec.st = .extData ∧
    (inFrame .extData 0xFFFF#16 0xFFFE#16 0#16 0x00#8).dec.counter.toNat < 65535 := by decide
theorem witness_BufferFaults : (inFrame .readData 0#16 0xFFFF#16 0#16 0x00#8).dec.counter.toNat = 65535 ∧
    (inFrame .extData 0#16 0xFFFF#16 0#16 0x00#8).dec.counter.toNat = 65535 ∧
    (inFrame .readCrc 1#16 1#16 0#16 0x37#8).dec.csum = 0x37#8 ∧
    0 < (inFrame .readCrc 1#16 1#16 0#16 0x37#8).dec.len.toNat ∧
    Memory.lookup (inFrame .readCrc 1#16 1#16 0#16 0x37#8).dec.payload 0 = none ∧
    0 < (inFrame .extChecksum 1#16 1#16 0#16 0x37#8).dec.len.toNat ∧
    Memory.lookup (inFrame .extChecksum 1#16 1#16 0#16 0x37#8).dec.payload 0 = none := by decide
theorem witness_GoodChecksumEmitsMessage : (beforeCrc.dec.st = .readCrc ∧ (0x37#8 : Byte) = beforeCrc.dec.csum ∧
      [0x10#8, 0x20#8].length = beforeCrc.dec.len.toNat ∧
      ∀ i (h : i < [0x10#8, 0x20#8].length), memRead beforeCrc.dec.payload i = .ok [0x10#8, 0x20#8][i]) ∧
    ((at_ .extChecksum).dec.st = .extChecksum ∧ (0x00#8 : Byte) = (at_ .extChecksum).dec.csum ∧
      ([] : List Byte).length = (at_ .extChecksum).dec.len.toNat) := by
  refine ⟨⟨rfl, rfl, rfl, fun i h => ?_⟩, rfl, rfl, rfl⟩
  match i, h with
  | 0, _ => rfl
  | 1, _ => rfl
theorem witness_BadChecksumRaisesMismatch : beforeCrc.dec.st = .readCrc ∧ (0x36#8 : Byte) ≠ beforeCrc.dec.csum ∧
    beforeXcrc.dec.st = .extChecksum ∧ (0x96#8 : Byte) ≠ beforeXcrc.dec.csum := by decide
theorem witness_ExtFlagsAndCommandBytes : (at_ .extFlags).dec.st = .extFlags ∧ (at_ .extIdLo).dec.st = .extIdLo ∧
    (at_ .extIdHi).dec.st = .extIdHi := by decide
theorem witness_ExtLengthBytesBranch : (at_ .extLenLo).dec.st = .extLenLo ∧
    ((inFrame .extLenHi 0#16 0#16 0#16 0x00#8).dec.st = .extLenHi ∧
      (0x00#8 : Byte) ++ (inFrame .extLenHi 0#16 0#16 0#16 0x00#8).dec.len.extractLsb' 0 8 = 0#16) ∧
    ((inFrame .extLenHi 1#16 0#16 0#16 0x00#8).dec.st = .extLenHi ∧
      (0x00#8 : Byte) ++ (inFrame .extLenHi 1#16 0#16 0#16 0x00#8).dec.len.extractLsb' 0 8 ≠ 0#16) := by decide

/-- Each row answers a next state in its own position: the hypothesis of RowsWriteOnlyTheirRegisters, row by row. -/
def rowRuns (i : Instr) (r : DecRow) (s : State) : Bool := i.row? == some r && (nextState? (exec i s)).isSome

theorem witness_RowsWriteOnly_shared : rowRuns (.idleSkip 0x00#8) .idleSkip (at_ .idle) = true ∧
    rowRuns .idleSync .idleSync (at_ .idle) = true ∧ rowRuns .fmtLegacy .fmtLegacy (at_ .awaitFormat) = true ∧
    rowRuns .fmtExt .fmtExt (at_ .awaitFormat) = true ∧
    rowRuns (.fmtDesync 0x00#8) .fmtDesync (at_ .awaitFormat) = true := by decide
theorem witness_RowsWriteOnly_legacy : rowRuns .dirReq .dirReq (at_ .awaitDirection) = true ∧
    rowRuns .dirRsp .dirRsp (at_ .awaitDirection) = true ∧
    rowRuns (.dirDesync 0x3C#8) .dirDesync (at_ .awaitDirection) = true ∧
    rowRuns (.len 0xFF#8) .len (at_ .readLen) = true ∧ rowRuns (.cmd 0x00#8) .cmd (at_ .readCmd) = true ∧
    rowRuns (.cmd 0x00#8) .cmd (inFrame .readCmd 1#16 0#16 0#16 0x01#8) = true ∧
    rowRuns (.data 0x24#8) .data (inFrame .readData 1#16 0#16 0#16 0x00#8) = true ∧
    rowRuns (.crcOk 0x37#8) .crcOk beforeCrc = true ∧ rowRuns (.crcBad 0x36#8) .crcBad beforeCrc = true := by decide
theorem witness_RowsWriteOnly_extended : rowRuns .xdirReq .xdirReq (at_ .extAwaitDirection) = true ∧
    rowRuns .xdirRsp .xdirRsp (at_ .extAwaitDirection) = true ∧
    rowRuns (.xdirDesync 0x3C#8) .xdirDesync (at_ .extAwaitDirection) = true ∧
    rowRuns (.xflags 0xFF#8) .xflags (at_ .extFlags) = true ∧ rowRuns (.xidLo 0xFF#8) .xidLo (at_ .extIdLo) = true ∧
    rowRuns (.xidHi 0xFF#8) .xidHi (at_ .extIdHi) = true ∧ rowRuns (.xlenLo 0xFF#8) .xlenLo (at_ .extLenLo) = true ∧
    rowRuns (.xlenHi 0x00#8) .xlenHi (at_ .extLenHi) = true ∧ rowRuns (.xlenHi 0x01#8) .xlenHi (at_ .extLenHi) = true ∧
    rowRuns (.xdata 0x24#8) .xdata (inFrame .extData 1#16 0#16 0#16 0x00#8) = true ∧
    rowRuns (.xcrcOk 0x97#8) .xcrcOk beforeXcrc = true ∧ rowRuns (.xcrcBad 0x96#8) .xcrcBad beforeXcrc = true := by decide

theorem witness_StepDispatchesToOneRow : beforeCrc.dec.inv = true ∧ beforeXcrc.dec.inv = true ∧
    State.reset.dec.inv = true := by decide
theorem witness_FeedAcceptsEveryChunk : State.reset.dec.inv = true ∧
    (inFrame .readData 255#16 0#16 0#16 0xFF#8).dec.inv = true ∧
    (inFrame .extData 0xFFFF#16 0#16 0#16 0x00#8).dec.inv = true := by decide
theorem witness_StepOutputs : (nextState? (exec (.decStep 0x37#8) beforeCrc)).isSome = true ∧ beforeCrc.dec.st = .readCrc ∧
    (0x37#8 : Byte) = beforeCrc.dec.csum ∧ (nextState? (exec (.decStep 0x36#8) beforeCrc)).isSome = true ∧
    (0x36#8 : Byte) ≠ beforeCrc.dec.csum ∧ (nextState? (exec (.decStep 0x97#8) beforeXcrc)).isSome = true ∧
    beforeXcrc.dec.st = .extChecksum ∧ (0x97#8 : Byte) = beforeXcrc.dec.csum ∧
    (nextState? (exec (.decStep 0x24#8) State.reset)).isSome = true ∧ State.reset.dec.st ≠ .readCrc ∧
    State.reset.dec.st ≠ .extChecksum := by decide
theorem witness_LegacyFrameAccepted : State.reset.dec.st = .idle ∧ ([] : List Byte).length = (0x00#8 : Byte).toNat ∧
    (0x44#8 : Byte) = [].foldl (fun a x => a ^^^ x) (0x00#8 ^^^ 0x44#8) ∧
    [0x10#8, 0x20#8].length = (0x02#8 : Byte).toNat ∧
    (0x37#8 : Byte) = [0x10#8, 0x20#8].foldl (fun a x => a ^^^ x) (0x02#8 ^^^ 0x05#8) := by decide
theorem witness_LegacyFrameAccepted_longest : (List.replicate 255 (0x24#8 : Byte)).length = (0xFF#8 : Byte).toNat ∧
    (0x24#8 : Byte) = (List.replicate 255 0x24#8).foldl (fun a x => a ^^^ x) (0xFF#8 ^^^ 0xFF#8) := by decide +kernel
theorem witness_LegacyFrameRejected : State.reset.dec.st = .idle ∧ [0x10#8, 0x20#8].length = (0x02#8 : Byte).toNat ∧
    (0x36#8 : Byte) ≠ [0x10#8, 0x20#8].foldl (fun a x => a ^^^ x) (0x02#8 ^^^ 0x05#8) := by decide
theorem witness_ExtFrameAcceptedOrRejected : State.reset.dec.st = .idle ∧
    ([] : List Byte).length = (0x00#8 ++ 0x00#8 : Half).toNat ∧
    (0x8F#8 : Byte) = crc8List 0x00#8 ([0x00#8, 0x64#8, 0x00#8, 0x00#8, 0x00#8] ++ []) ∧
    (0x8E#8 : Byte) ≠ crc8List 0x00#8 ([0x00#8, 0x64#8, 0x00#8, 0x00#8, 0x00#8] ++ []) := by decide +kernel
theorem witness_ExtFrameAcceptedOrRejected_longest :
    (List.replicate 65535 (0x24#8 : Byte)).length = (0xFF#8 ++ 0xFF#8 : Half).toNat := by rw [List.length_replicate]; rfl
theorem witness_GarbageWithoutSyncIgnored : State.reset.dec.st = .idle ∧ (0x24#8 : Byte) ∉ [0x4D#8, 0x00#8, 0xFF#8] ∧
    (0x24#8 : Byte) ∉ ([] : List Byte) := by decide
theorem witness_NoRestartInsideFrame : beforeCrc.dec.st ≠ .idle ∧ (at_ .awaitFormat).dec.st ≠ .idle ∧
    (nextState? (exec (.decStep 0x24#8) beforeCrc)).isSome = true ∧
    (nextState? (exec (.decStep 0x24#8) (at_ .awaitFormat))).isSome = true := by decide

/-- `DEC.STEP` of either byte answers a next state. -/
def bothRun (s : State) (b b' : Byte) : Bool :=
  (nextState? (exec (.decStep b) s)).isSome && (nextState? (exec (.decStep b') s)).isSome

theorem witness_PayloadIsNeverFraming : bothRun (at_ .readCmd) 0x24#8 0x00#8 = true ∧
    bothRun (inFrame .readData 1#16 0#16 0#16 0x00#8) 0x24#8 0x00#8 = true ∧ bothRun (at_ .extFlags) 0x24#8 0x00#8 = true ∧
    bothRun (at_ .extIdLo) 0x24#8 0x00#8 = true ∧ bothRun (at_ .extIdHi) 0x24#8 0x00#8 = true ∧
    bothRun (inFrame .extData 2#16 0#16 0#16 0x00#8) 0x24#8 0x00#8 = true := by decide
theorem witness_StaleStateIsUnobservable : (inFrame .idle 3#16 3#16 0x1234#16 0x97#8).dec.st = .idle ∧
    State.reset.dec.st = .idle ∧ inFrame .idle 3#16 3#16 0x1234#16 0x97#8 ≠ State.reset := by decide
theorem witness_XorLaws : List.Perm [0x10#8, 0x20#8] [(0x20#8 : Byte), 0x10#8] := List.Perm.swap _ _ _
theorem witness_CrcLaws : (0x10#8 : Byte) ≠ 0x20#8 := by decide
theorem witness_EncodeOutputsFrame (b : Byte) : ([] : List Byte).length ≤ 255 ∧ (List.replicate 255 b).length ≤ 255 ∧
    State.reset.enc.st = .encIdle := ⟨by decide, by rw [List.length_replicate], rfl⟩
theorem witness_OversizePayloadRefused (b : Byte) : 255 < (List.replicate 256 b).length ∧
    (given (.encStart 0x05#8 (List.replicate 256 b))).pending = .encStart 0x05#8 (List.replicate 256 b) :: [] :=
  ⟨by rw [List.length_replicate]; decide, rfl⟩
theorem witness_TransmitRowsOutputs : State.reset.enc.st = .encIdle ∧ [0x01#8].length ≤ 255 := by decide
theorem witness_SerialiserRows : (given (.encStart 0x03#8 [])).pending = .encStart 0x03#8 [] :: [] ∧
    (given (.encStart 0x03#8 [])).enc.st = .encIdle ∧ ([] : List Byte).length ≤ 255 ∧
    (given .encTick).pending = .encTick :: [] ∧ (given .encTick).enc.st = .encIdle ∧
    (sending .encSync).pending = [] ∧ (sending .encSync).enc.st = .encSync ∧ (sending .encFmt).enc.st = .encFmt ∧
    (sending .encDir).enc.st = .encDir ∧ (sending .encLen).enc.st = .encLen ∧ (sending .encCmd).enc.st = .encCmd ∧
    (sending .encData).enc.st = .encData ∧
    (sending .encData).enc.payload[(sending .encData).enc.idx.toNat]? = some 0xAA#8 ∧
    (sending .encCsum).enc.st = .encCsum := by decide
theorem witness_SerialiserEmitsTheFrame : [0xAA#8].length ≤ 255 ∧ (given (.encStart 0x03#8 [0xAA#8])).enc.st = .encIdle ∧
    (given (.encStart 0x03#8 [0xAA#8])).pending = [.encStart 0x03#8 [0xAA#8]] := by decide

/-- The serialiser in the middle of the frame of `sending`, with the checksum of what it has emitted, and a waiting request. -/
def busy (st : EncPos) (csum : Byte) (x : Stimulus) : State :=
  { sending st with enc := { (sending st).enc with csum := csum }, pending := [x] }

theorem witness_BusyEncoderFinishesFirst : (busy .encSync 0x00#8 (.op (encode (.encLegacy 0x44#8 [])))).enc.inv = true ∧
    (busy .encFmt 0x00#8 (.op (encode (.frameLegacyTx 0x05#8 [0xAA#8])))).enc.inv = true ∧
    (busy .encDir 0x00#8 (.op (encode .variant))).enc.inv = true ∧
    (busy .encLen 0x00#8 (.op (encode .version))).enc.inv = true ∧
    (busy .encCmd 0x01#8 (.op (encode .reboot))).enc.inv = true ∧
    (busy .encData 0x02#8 (.encStart 0x44#8 [])).enc.inv = true ∧
    (busy .encCsum 0xA8#8 (.encStart 0x44#8 [])).enc.inv = true ∧
    (busy .encCsum 0xA8#8 (.encStart 0x44#8 [])).pending = .encStart 0x44#8 [] :: [] ∧
    State.reset.enc.inv = true ∧ ([] : List Byte).length ≤ 255 := by decide
theorem witness_LoopBackIsDropped : State.reset.enc.st = .encIdle ∧
    sent? (.encLegacy 0x44#8 []) State.reset = some (State.reset.encOut ++ [0x24#8, 0x4D#8, 0x3C#8, 0x00#8, 0x44#8, 0x44#8]) ∧
    State.reset.dec.st = .idle ∧ (0x24#8 : Byte) ∉ [0x24#8, 0x4D#8, 0x3C#8, 0x00#8, 0x44#8, 0x44#8].drop 3 := by decide
theorem witness_PatchedRoundTrip : State.reset.enc.st = .encIdle ∧
    sent? (.encLegacy 0x44#8 []) State.reset = some (State.reset.encOut ++ [0x24#8, 0x4D#8, 0x3C#8, 0x00#8, 0x44#8, 0x44#8]) ∧
    State.reset.dec.st = .idle ∧ [[0x24#8, 0x4D#8], [], [0x3E#8, 0x00#8, 0x44#8, 0x44#8]].flatten =
      [0x24#8, 0x4D#8, 0x3C#8, 0x00#8, 0x44#8, 0x44#8].set 2 (0x3E#8 : Byte) := by decide
theorem witness_DecoderTouchesOnlyItsOwn : decOp (.decFeed [0x24#8, 0x4D#8]) = true ∧
    (nextState? (exec (.decFeed [0x24#8, 0x4D#8]) State.reset)).isSome = true := by decide
theorem witness_OtherOperationsTouchOnlyTheirOwn : encOp (.encLegacy 0x44#8 []) = true ∧
    (nextState? (exec (.encLegacy 0x44#8 []) State.reset)).isSome = true ∧ State.reset.enc.st = .encIdle ∧
    (nextState? (exec (.encLegacy 0x44#8 []) (sending .encCmd))).isSome = true ∧
    Instr.format (.crc8Bit 0x80#8) = .func ∧ (nextState? (exec (.crc8Bit 0x80#8) State.reset)).isSome = true ∧
    (nextState? (exec .xor8Init State.reset)).isSome = true ∧
    (nextState? (exec (.crc8Step 0x01#8) State.reset)).isSome = true := by decide
theorem witness_AgentsCommute : decOp (.decStep 0x24#8) = true ∧ encOp .encReset = true ∧
    (nextState? (exec (.decStep 0x24#8) State.reset)).isSome = true ∧
    (nextState? (exec .encReset State.reset)).isSome = true ∧ encOp (.encLegacy 0x44#8 []) = true ∧
    (nextState? (exec (.encLegacy 0x44#8 []) (sending .encCmd))).isSome = true := by decide
theorem witness_OutputsOnlyGrow : (nextState? (step (given (.op (.encLegacy 0x44#8 []))))).isSome = true ∧
    (nextState? (step State.reset)).isSome = true := by decide
theorem witness_StepKeepsCanonicalBuffer : beforeCrc.dec.payload.wf = true ∧
    (nextState? (step { inFrame .readData 1#16 0#16 0#16 0x00#8 with pending := [.op (.decByte 0x24#8)] })).isSome = true := by
  decide
theorem witness_StepKeepsInvariant : beforeCrc.inv = true ∧ (sending .encSync).inv = true ∧
    (nextState? (step (sending .encSync))).isSome = true := by decide
theorem witness_NothingIsStuck (b : Byte) : (given (.op (.encLegacy 0x05#8 (List.replicate 256 b)))).inv = true ∧
    255 < (List.replicate 256 b).length ∧
    step (given (.op (.encLegacy 0x05#8 (List.replicate 256 b)))) = .refused .encodeOversize ∧
    step (given (.encStart 0x05#8 (List.replicate 256 b))) = .refused .encodeOversize ∧
    (given (.op (.frameRx []))).inv = true ∧ step (given (.op (.frameRx []))) = .refused (.undecodable .truncated) :=
  ⟨rfl, by rw [List.length_replicate]; decide, rfl, rfl, rfl, rfl⟩

end Sys2Proof.Tests
end

section
/-! What one `DEC.STEP` outputs (R20), and what the two resets leave (R27). -/

namespace Sys2Proof.Machine

/-! ### The host operations, as outcomes -/

theorem exec_decStep (b : Byte) (s : State) : exec (.decStep b) s = commitStep s (decStep b s.dec) := rfl

theorem exec_decReset (s : State) : exec .decReset s = .next { s with dec := decClear s.dec } := rfl

theorem exec_encReset (s : State) : exec .encReset s = .next { s with enc := encClear s.enc } := rfl

/-! ### The output of one decoder step -/

/-- The two checksum positions answer alike: the message or the diagnostic. -/
theorem decStep_of_checksum {d : DecState} (b : Byte) (h : d.st = .readCrc ∨ d.st = .extChecksum) :
    decStep b d = if b = d.csum then emitMessage d
      else .ok ({ d with st := .idle }, some (.checksumMismatch d.command)) :=
  h.elim (decStep_readCrc b) (decStep_extChecksum b)

/-- Every position but the two checksum positions is silent. -/
theorem decStep_silent {b : Byte} {d d' : DecState} {o : Option DecOutput} (hc : d.st ≠ .readCrc)
    (hx : d.st ≠ .extChecksum) (h : decStep b d = .ok (d', o)) : o = none := by
  cases hst : d.st
  case readCrc => exact absurd hst hc
  case extChecksum => exact absurd hst hx
  case readData => obtain ⟨-, rfl, -⟩ := storePayload_cases (decStep_readData b hst ▸ h); rfl
  case extData => obtain ⟨-, rfl, -⟩ := storePayload_cases (decStep_extData b hst ▸ h); rfl
  case idle => rw [decStep_idle b hst] at h; split at h <;> cases h <;> rfl
  case awaitDirection => rw [decStep_awaitDirection b hst] at h; split_ifs at h <;> cases h <;> rfl
  case extAwaitDirection => rw [decStep_extAwaitDirection b hst] at h; split_ifs at h <;> cases h <;> rfl
  case awaitFormat => rw [decStep_awaitFormat b hst] at h; cases h; rfl
  case readLen => rw [decStep_readLen b hst] at h; cases h; rfl
  case readCmd => rw [decStep_readCmd b hst] at h; cases h; rfl
  case extFlags => rw [decStep_extFlags b hst] at h; cases h; rfl
  case extIdLo => rw [decStep_extIdLo b hst] at h; cases h; rfl
  case extIdHi => rw [decStep_extIdHi b hst] at h; cases h; rfl
  case extLenLo => rw [decStep_extLenLo b hst] at h; cases h; rfl
  case extLenHi => rw [decStep_extLenHi b hst] at h; cases h; rfl

/-! ### The obligations -/

/-- Settles O27: the checksum positions emit the message read from the buffer or the diagnostic, and every other position
is silent. -/
theorem stepOutputs : Obligations.StepOutputs := by
  intro s t b h
  rw [exec_decStep] at h
  obtain ⟨d, o, hd, rfl⟩ := commitStep_cases h
  refine ⟨fun hst hb => ?_, fun hst hb => ?_, fun hc hx => ?_⟩
  · rw [decStep_of_checksum b hst, if_pos hb] at hd
    obtain ⟨p, hp, rfl, -⟩ := emitMessage_cases hd
    obtain ⟨hlen, hbytes⟩ := (memReadList_eq_ok _ _ _ p).mp hp
    exact ⟨p, hlen, by simpa using hbytes, rfl⟩
  · rw [decStep_of_checksum b hst, if_neg hb] at hd
    cases hd
    rfl
  · obtain rfl := decStep_silent hc hx hd
    exact List.append_nil _

/-- Settles O1: power-up by its own values, the two resets by what `decClear` and `encClear` leave in each register. -/
theorem resetValues : Obligations.ResetValues := by
  refine ⟨?_, fun s => ⟨_, exec_decReset s, ?_⟩, fun s => ⟨_, exec_encReset s, ?_⟩⟩
  · simp [State.reset, DecState.reset, EncState.reset]
  · simp
  · simp

end Sys2Proof.Machine
end

section
/-! The checksum functions as calls (R66, R68, R69) and the two standalone engines (R74, R75). -/

namespace Sys2Proof.Machine

/-! ### The function calls, as outcomes -/

theorem exec_xor8Update (acc b : Byte) (s : State) :
    exec (.xor8Update acc b) s = .next { s with results := s.results ++ [xor8 acc b] } := rfl

theorem exec_crc8Bit (c : Byte) (s : State) :
    exec (.crc8Bit c) s = .next { s with results := s.results ++ [crc8Bit c] } := rfl

theorem exec_crc8Update (crc b : Byte) (s : State) :
    exec (.crc8Update crc b) s = .next { s with results := s.results ++ [crc8 crc b] } := rfl

/-- The step as R68 writes it: the model's byte is eight bits wide, so masking the shifted value to a byte keeps it. -/
theorem crc8Bit_eq_masked (c : Byte) :
    crc8Bit c = if c.getLsbD 7 = true then ((c <<< 1) &&& 0xFF#8) ^^^ 0xD5#8 else (c <<< 1) &&& 0xFF#8 := by
  have hmask : (c <<< 1) &&& 0xFF#8 = c <<< 1 := BitVec.and_allOnes
  rw [hmask]
  rfl

theorem crc8_eq_eight_bits (crc b : Byte) :
    crc8 crc b = crc8Bit (crc8Bit (crc8Bit (crc8Bit (crc8Bit (crc8Bit (crc8Bit (crc8Bit (crc ^^^ b)))))))) := rfl

/-! ### The engines, as outcomes -/

theorem exec_xor8Init (s : State) : exec .xor8Init s = .next { s with xorAcc := 0x00#8 } := rfl

theorem exec_xor8Step (b : Byte) (s : State) :
    exec (.xor8Step b) s = .next { s with xorAcc := s.xorAcc ^^^ b } := rfl

theorem exec_crc8Init (s : State) : exec .crc8Init s = .next { s with crcAcc := 0x00#8 } := rfl

theorem exec_crc8Step (b : Byte) (s : State) :
    exec (.crc8Step b) s = .next { s with crcAcc := crc8 s.crcAcc b } := rfl

/-! ### A list of operations on one accumulator -/

theorem execAll_cons_next {i : Instr} {rest : List Instr} {s t : State} (h : exec i s = .next t) :
    execAll (i :: rest) s = execAll rest t := by
  simp only [execAll, h]

/-- An operation that folds its byte into one accumulator, run for the bytes of a list, folds the whole list into it.
`put a` is the machine with `a` in that accumulator, so everything else stays as it is. -/
theorem execAll_map_foldl {op : Byte → Instr} {f : Byte → Byte → Byte} (put : Byte → State)
    (h : ∀ a b, exec (op b) (put a) = .next (put (f a b))) (m : List Byte) (a : Byte) :
    execAll (m.map op) (put a) = .next (put (m.foldl f a)) := by
  induction m generalizing a with
  | nil => rfl
  | cons b m ih => rw [List.map_cons, execAll_cons_next (h a b), ih, List.foldl_cons]

/-- R74: the exclusive-or engine after `INIT` and the bytes of a list. -/
theorem execAll_xor8Engine (s : State) (m : List Byte) :
    execAll (.xor8Init :: m.map .xor8Step) s = .next { s with xorAcc := xor8List 0x00#8 m } := by
  rw [execAll_cons_next (exec_xor8Init s), xor8List_eq_foldl]
  exact execAll_map_foldl (fun a => { s with xorAcc := a }) (fun _ b => exec_xor8Step b _) m 0x00#8

/-- R75: the CRC engine after `INIT` and the bytes of a list. -/
theorem execAll_crc8Engine (s : State) (m : List Byte) :
    execAll (.crc8Init :: m.map .crc8Step) s = .next { s with crcAcc := crc8List 0x00#8 m } := by
  rw [execAll_cons_next (exec_crc8Init s), crc8List_eq_foldl]
  exact execAll_map_foldl (fun a => { s with crcAcc := a }) (fun _ b => exec_crc8Step b _) m 0x00#8

/-! ### The obligations -/

/-- Settles O39: each engine operation by its outcome, and the list law by the fold of the accumulator. -/
theorem enginesAccumulate : Obligations.EnginesAccumulate := fun s b m =>
  ⟨exec_xor8Init s, exec_xor8Step b s, execAll_xor8Engine s m,
    exec_crc8Init s, exec_crc8Step b s, execAll_crc8Engine s m⟩

/-- Settles O38: each call returns its function's value, and the bit step is the masked shift that R68 writes. -/
theorem functionCallResults : Obligations.FunctionCallResults := by
  intro s x b bit
  have hbit : crc8Bit = bit := funext crc8Bit_eq_masked
  rw [exec_crc8Bit, exec_crc8Update, crc8_eq_eight_bits, hbit]
  exact ⟨exec_xor8Update x b s, rfl, rfl⟩

end Sys2Proof.Machine
end

section
/-! The rows of the shared states and of the legacy branch (41_decoder_legacy.md R82 to R94), with the rows of the extended
branch that do the same, and a chunk as one step and then the rest (R81). -/

namespace Sys2Proof.Machine

/-! ### A row run where its context holds -/

section rows
variable {i : Instr} {r : DecRow} {b : Byte} {s : State} {d : DecState}

/-- The instruction of a row, where its context holds, does the effect of its row for its own byte (R53). -/
theorem exec_row (hr : i.row? = some r) (he : encode i = .decByte b) (hw : i.wf = true)
    (hc : i.context s.dec.st s.dec.csum = true) : exec i s = commitStep s (rowEffect r b s.dec) := by
  obtain ⟨b', he', hsel, rfl⟩ := selectRow_of_context hr hw hc
  obtain rfl : b' = b := Request.decByte.inj (he'.symm.trans he)
  cases r <;> cases he <;> exact runRow_selected hsel

/-- A row whose effect outputs nothing changes the Decoder State alone. -/
theorem exec_row_silent (hr : i.row? = some r) (he : encode i = .decByte b) (hw : i.wf = true)
    (hc : i.context s.dec.st s.dec.csum = true) (heff : rowEffect r b s.dec = .ok (d, none)) :
    exec i s = .next { s with dec := d } := by
  rw [exec_row hr he hw hc, heff]
  simp [commitStep, commitDec]

/-- A row whose effect has an output changes the Decoder State and appends that output. -/
theorem exec_row_output {o : DecOutput} (hr : i.row? = some r) (he : encode i = .decByte b) (hw : i.wf = true)
    (hc : i.context s.dec.st s.dec.csum = true) (heff : rowEffect r b s.dec = .ok (d, some o)) :
    exec i s = .next { s with dec := d, decOut := s.decOut ++ [o] } := by
  rw [exec_row hr he hw hc, heff]
  rfl

/-- A row that stores a payload byte (R92, R108): the byte reads back at the old `counter`, and every other index reads as
before. -/
theorem exec_row_store {csum : Byte} {stay leave : Pos} (hr : i.row? = some r) (he : encode i = .decByte b)
    (hw : i.wf = true) (hc : i.context s.dec.st s.dec.csum = true)
    (heff : rowEffect r b s.dec = storePayload b csum stay leave s.dec)
    (hin : s.dec.counter.toNat < Config.payloadMax) :
    ∃ t, exec i s = .next t ∧
      t = { s with dec := { s.dec with
        payload := t.dec.payload, csum := csum, counter := s.dec.counter + 1#16,
        st := if s.dec.counter + 1#16 = s.dec.len then leave else stay } } ∧
      memRead t.dec.payload s.dec.counter.toNat = .ok b ∧
      ∀ a, a ≠ s.dec.counter.toNat → memRead t.dec.payload a = memRead s.dec.payload a :=
  ⟨_, exec_row_silent hr he hw hc (heff.trans (storePayload_ok b csum stay leave s.dec hin)), rfl,
    memRead_insert_same _ b hin, fun _ ha => memRead_insert_other _ b ha⟩

/-- A row that emits the message (R93, R109): its payload is what the buffer holds at the indices below `len`. -/
theorem exec_row_emit {p : List Byte} (hr : i.row? = some r) (he : encode i = .decByte b) (hw : i.wf = true)
    (hc : i.context s.dec.st s.dec.csum = true) (heff : rowEffect r b s.dec = emitMessage s.dec)
    (hlen : p.length = s.dec.len.toNat) (hp : ∀ j (h : j < p.length), memRead s.dec.payload j = .ok p[j]) :
    exec i s = .next { s with
      dec := { s.dec with st := .idle }, decOut := s.decOut ++ [.msg s.dec.isResponse s.dec.command p] } := by
  have hread : memReadList s.dec.payload 0 s.dec.len.toNat = .ok p :=
    (memReadList_eq_ok _ _ _ _).mpr ⟨hlen, by simpa using hp⟩
  exact exec_row_output hr he hw hc (heff.trans (emitMessage_ok hread))

end rows

/-! ### Where a frame goes once its length is known -/

theorem beginPayload_of_empty {d : DecState} (data checksum : Pos) (h : d.len = 0#16) :
    beginPayload data checksum d = { d with st := checksum } := by
  simp [beginPayload, payloadEmpty, h]

theorem beginPayload_of_nonempty {d : DecState} (data checksum : Pos) (h : d.len ≠ 0#16) :
    beginPayload data checksum d = { d with counter := 0#16, st := data } := by
  simp [beginPayload, payloadEmpty, h]

/-- CMD (R91), before the branch on `len`. -/
theorem exec_cmd {s : State} (b : Byte) (h : s.dec.st = .readCmd) :
    exec (.cmd b) s = .next { s with
      dec := beginPayload .readData .readCrc { s.dec with command := zext16 b, csum := xor8 s.dec.csum b } } :=
  exec_row_silent rfl rfl rfl (beq_iff_eq.mpr h) rfl

/-! ### The obligations on the rows -/

/-- Settles O11: the row's effect is `startMessage` and the new position. -/
theorem idleSyncStartsMessage : Obligations.IdleSyncStartsMessage := fun _ h =>
  exec_row_silent rfl rfl rfl (beq_iff_eq.mpr h) rfl

/-- Settles O12: the row's effect leaves the Decoder State as it is. -/
theorem idleSkipChangesNothing : Obligations.IdleSkipChangesNothing := fun _ _ h hb =>
  exec_row_silent rfl rfl (bne_iff_ne.mpr hb) (beq_iff_eq.mpr h) rfl

/-- Settles O13: each marker's row is a `goto`. -/
theorem formatMarkersSelectBranch : Obligations.FormatMarkersSelectBranch := fun _ h =>
  ⟨exec_row_silent rfl rfl rfl (beq_iff_eq.mpr h) rfl, exec_row_silent rfl rfl rfl (beq_iff_eq.mpr h) rfl⟩

/-- Settles O14: the three rows take the event `Desync`, which shows the host nothing. -/
theorem desyncFallsBackSilently : Obligations.DesyncFallsBackSilently := by
  intro s b
  refine ⟨fun h h₁ h₂ => ?_, fun h h₁ h₂ => ?_, fun h h₁ h₂ => ?_⟩ <;>
    exact exec_row_silent rfl rfl (Bool.and_eq_true_iff.mpr ⟨bne_iff_ne.mpr h₁, bne_iff_ne.mpr h₂⟩)
      (beq_iff_eq.mpr h) rfl

/-- Settles O15: in both branches a direction marker's row writes `is_response` and goes on. -/
theorem directionMarkersSetResponse : Obligations.DirectionMarkersSetResponse := by
  intro s
  refine ⟨fun h => ⟨?_, ?_⟩, fun h => ⟨?_, ?_⟩⟩ <;>
    exact exec_row_silent rfl rfl rfl (beq_iff_eq.mpr h) rfl

/-- Settles O16: `zext16` is the zero extension of the byte. -/
theorem lengthByteLoads : Obligations.LengthByteLoads := fun _ _ h =>
  exec_row_silent rfl rfl rfl (beq_iff_eq.mpr h) rfl

/-- Settles O17: the two branches of `beginPayload`, whose test is on a `len` that CMD does not write. -/
theorem commandByteBranchesOnLength : Obligations.CommandByteBranchesOnLength := by
  intro s b h
  refine ⟨fun hz => ?_, fun hz => ?_⟩
  · rw [exec_cmd b h, beginPayload_of_empty]
    · rfl
    · exact hz
  · rw [exec_cmd b h, beginPayload_of_nonempty]
    · rfl
    · exact hz

/-- Settles O18: DATA stores, with `xor8` as its checksum. -/
theorem dataByteStoresAndCounts : Obligations.DataByteStoresAndCounts := fun _ _ h hin =>
  exec_row_store rfl rfl rfl (beq_iff_eq.mpr h) rfl hin

/-- Settles O21: both rows emit the message. -/
theorem goodChecksumEmitsMessage : Obligations.GoodChecksumEmitsMessage := by
  intro s b p hb hlen hp
  refine ⟨fun h => ?_, fun h => ?_⟩ <;>
    exact exec_row_emit rfl rfl rfl (Bool.and_eq_true_iff.mpr ⟨beq_iff_eq.mpr h, beq_iff_eq.mpr hb⟩) rfl hlen hp

/-- Settles O22: both rows take the event `ChecksumMismatch`, which shows the host the command. -/
theorem badChecksumRaisesMismatch : Obligations.BadChecksumRaisesMismatch := by
  intro s b hb
  refine ⟨fun h => ?_, fun h => ?_⟩ <;>
    exact exec_row_output rfl rfl rfl (Bool.and_eq_true_iff.mpr ⟨beq_iff_eq.mpr h, bne_iff_ne.mpr hb⟩) rfl

/-! ### A chunk as one step and the rest -/

theorem exec_decFeed (bytes : List Byte) (s : State) : exec (.decFeed bytes) s = commitDec s (decFeed bytes s.dec) := rfl

theorem exec_decFeed_nil (s : State) : exec (.decFeed []) s = .next s := by
  simp [exec_decFeed, commitDec]

theorem execAll_singleton (i : Instr) (s : State) : execAll [i] s = exec i s := by
  cases h : exec i s <;> simp only [execAll, h]

theorem execAll_cons_fault {i : Instr} {s : State} {f : Fault} (rest : List Instr) (h : exec i s = .fault f) :
    execAll (i :: rest) s = .fault f := by
  simp only [execAll, h]

/-- A step that faults stops the chunk; a step that answers hands its state, with its output in place, to the rest. -/
theorem exec_decFeed_cons (b : Byte) (rest : List Byte) (s : State) :
    exec (.decFeed (b :: rest)) s = execAll [.decStep b, .decFeed rest] s := by
  cases hstep : decStep b s.dec with
  | error f =>
    have hexec : exec (.decStep b) s = .fault f := by rw [exec_decStep, hstep]; rfl
    rw [execAll_cons_fault _ hexec, exec_decFeed, decFeed, hstep]
    rfl
  | ok answer =>
    obtain ⟨d, o⟩ := answer
    have hexec : exec (.decStep b) s = .next { s with dec := d, decOut := s.decOut ++ o.toList } := by
      rw [exec_decStep, hstep]; rfl
    rw [execAll_cons_next hexec, execAll_singleton, exec_decFeed, exec_decFeed, decFeed_cons_ok rest hstep]
    cases hrest : decFeed rest d with
    | error f => rfl
    | ok r => simp [commitDec]

/-- Settles O28: the empty chunk, and a chunk that begins with a byte. -/
theorem feedIsStepsInOrder : Obligations.FeedIsStepsInOrder := fun s b rest =>
  ⟨exec_decFeed_nil s, exec_decFeed_cons b rest s⟩

end Sys2Proof.Machine
end

section
/-! The rows of the extended branch that write header fields and payload (42_decoder_extended.md R103 to R108). -/

namespace Sys2Proof.Machine

/-! ### A field assembled low byte first -/

/-- The second byte of a field goes above the byte already in its register (R105, R107). -/
theorem assemble_lowByte (b : Byte) (v : Half) : assemble b (lowByte v) = b ++ v.extractLsb' 0 8 := rfl

/-- XLEN.HI (R107), before the branch on the new `len`. -/
theorem exec_xlenHi {s : State} (b : Byte) (h : s.dec.st = .extLenHi) :
    exec (.xlenHi b) s = .next { s with
      dec := beginPayload .extData .extChecksum
        { s.dec with csum := crc8 s.dec.csum b, len := b ++ s.dec.len.extractLsb' 0 8 } } := by
  rw [← assemble_lowByte]
  exact exec_row_silent rfl rfl rfl (beq_iff_eq.mpr h) rfl

/-! ### The obligations -/

/-- Settles O19: XDATA stores, with `crc8` as its checksum. -/
theorem extDataByteStoresAndCounts : Obligations.ExtDataByteStoresAndCounts := fun _ _ h hin =>
  exec_row_store rfl rfl rfl (beq_iff_eq.mpr h) rfl hin

/-- Settles O23: each row is a `goto` with its fields written, and XID.HI assembles the command. -/
theorem extFlagsAndCommandBytes : Obligations.ExtFlagsAndCommandBytes := by
  intro s b
  rw [← assemble_lowByte]
  refine ⟨fun h => ?_, fun h => ?_, fun h => ?_⟩ <;>
    exact exec_row_silent rfl rfl rfl (beq_iff_eq.mpr h) rfl

/-- Settles O24: XLEN.LO is a `goto`, and XLEN.HI takes the two branches of `beginPayload` on the `len` it has just
written. -/
theorem extLengthBytesBranch : Obligations.ExtLengthBytesBranch := by
  intro s b
  refine ⟨fun h => ?_, fun h hz => ?_, fun h hz => ?_⟩
  · exact exec_row_silent rfl rfl rfl (beq_iff_eq.mpr h) rfl
  · rw [exec_xlenHi b h, hz, beginPayload_of_empty _ _ rfl]
  · rw [exec_xlenHi b h, beginPayload_of_nonempty _ _ hz]

end Sys2Proof.Machine
end

section
/-! The whole-frame encoder (43_encoder_legacy.md R121 to R123). -/

namespace Sys2Proof.Machine

/-! ### ENC.LEGACY taken by an idle serialiser -/

theorem exec_encLegacy (c : Byte) (p : List Byte) (s : State) :
    exec (.encLegacy c p) s = encRequest (.op (.encLegacy c p)) p (emitFrame c p) s := rfl

/-- R121: the request is taken, and its frame goes to `OUT`. -/
theorem exec_encLegacy_idle (c : Byte) {p : List Byte} {s : State} (hp : p.length ≤ Config.encPayloadMax)
    (hs : s.enc.st = .encIdle) :
    exec (.encLegacy c p) s = .next { s with encOut := s.encOut ++ legacyTxBytes c p } :=
  (exec_encLegacy c p s).trans (encRequest_idle hp hs)

/-! ### The bytes of a frame -/

/-- R123: the checksum is the exclusive-or of the length byte, the command byte and the payload. -/
theorem legacyChecksum_eq_foldl (n c : Byte) (p : List Byte) :
    legacyChecksum n c p = p.foldl (fun a x => a ^^^ x) (n ^^^ c) := by
  rw [legacyChecksum_eq, xor8List_eq_foldl, xor8]

/-- R121: the markers, the header, the payload and the checksum, written out. -/
theorem legacyTxBytes_eq (c : Byte) (p : List Byte) :
    legacyTxBytes c p = [0x24#8, 0x4D#8, 0x3C#8, BitVec.ofNat 8 p.length, c] ++ p ++
      [p.foldl (fun a x => a ^^^ x) (BitVec.ofNat 8 p.length ^^^ c)] := by
  rw [← legacyChecksum_eq_foldl]
  rfl

/-! ### The obligation -/

/-- Settles O45: the idle serialiser takes the request, and the frame it outputs has the bytes of R121. -/
theorem encodeOutputsFrame : Obligations.EncodeOutputsFrame := fun _ c p hp hs =>
  ⟨legacyTxBytes c p, exec_encLegacy_idle c hp hs, legacyTxBytes_eq c p, legacyTxBytes_length c p⟩

end Sys2Proof.Machine
end

section
/-! The two resets at any time (70_reset_and_hazards.md section 2, R156 and R157). -/

namespace Sys2Proof.Machine

/-- The reset values do not depend on the state they replace, so a second `DEC.RESET` finds nothing to change. -/
@[simp] theorem decClear_decClear (d : DecState) : decClear (decClear d) = decClear d := rfl

/-- R156: two `DEC.RESET` in a row are one. -/
theorem execAll_decReset_twice (s : State) : execAll [.decReset, .decReset] s = exec .decReset s := by
  rw [execAll_cons_next (exec_decReset s), execAll_singleton, exec_decReset, exec_decReset, decClear_decClear]

/-- Settles O2: each reset by its outcome, and the second `DEC.RESET` by `decClear` being idempotent. -/
theorem resetOperationsResult : Obligations.ResetOperationsResult := fun s =>
  ⟨exec_decReset s, execAll_decReset_twice s, exec_encReset s⟩

end Sys2Proof.Machine
end

section
/-! Words: what the decode map selects, in both readings (30_encoding.md R53, R54), and that decoding a word and encoding an
instruction are inverse to each other (R46 to R48). -/

namespace Sys2Proof

open Machine

/-! ### The words of the frame layouts -/

/-- The bytes of a received legacy layout decode to its row (R46). -/
theorem decodeFrameRx_legacyBytes (d n c k : Byte) {p : List Byte} (h : p.length = n.toNat) :
    decodeFrameRx (legacyRxBytes d n c p k) = .ok (.frameLegacyRx d n c p k) := by
  simp [legacyRxBytes, decodeFrameRx, decodeLegacyRx, ← h, splitTail_append]

/-- The bytes of a received extended layout decode to its row (R47). -/
theorem decodeFrameRx_extBytes (d f cl ch nl nh k : Byte) {p : List Byte} (h : p.length = (assemble nh nl).toNat) :
    decodeFrameRx (extRxBytes d f cl ch nl nh p k) = .ok (.frameExtRx d f cl ch nl nh p k) := by
  have hm : markExt ≠ markLegacy := by decide
  simp [extRxBytes, decodeFrameRx, decodeExtRx, hm, ← h, splitTail_append]

/-- A well-formed FRAME.LEGACY_TX is the row of its own command and payload (log entry 12). -/
theorem frameTxRow_of_wf {c : Byte} {p : List Byte} (h : (Instr.frameLegacyTx c p).wf = true) :
    p.length ≤ Config.encPayloadMax ∧ frameTxRow c p = .frameLegacyTx c p := by
  simp only [Instr.wf, Bool.and_eq_true, decide_eq_true_eq] at h
  obtain ⟨hlen, hown⟩ := h
  refine ⟨hlen, ?_⟩
  cases p with
  | cons x xs => rfl
  | nil => simp_all [frameTxRow]

/-- Each transmit row's word is the encoder's frame of its command and payload (R48, R129). -/
theorem encode_frameTxRow (c : Byte) (p : List Byte) : encode (frameTxRow c p) = .frameTx (legacyTxBytes c p) := by
  cases p with
  | cons x xs => rfl
  | nil =>
    simp only [frameTxRow, List.isEmpty_nil, if_true]
    split_ifs with hvar hver hreb
    · rw [hvar]; rfl
    · rw [hver]; rfl
    · rw [hreb]; rfl
    · rfl

/-- No transmit row asks anything of the decoder's position. -/
theorem context_frameTxRow (c : Byte) (p : List Byte) (st : Pos) (csum : Byte) :
    (frameTxRow c p).context st csum = true := by
  unfold frameTxRow
  split_ifs <;> rfl

/-! ### The rows of one byte -/

/-- The instruction of the selected row carries the byte, is looked for in that position, and is well formed (R53). -/
theorem selectRow_instr (st : Pos) (csum b : Byte) :
    encode ((selectRow st csum b).instr b) = .decByte b ∧
      ((selectRow st csum b).instr b).context st csum = true ∧ ((selectRow st csum b).instr b).wf = true := by
  fun_cases selectRow st csum b <;> simp_all [DecRow.instr, encode, Instr.context, Instr.wf]

/-- The instruction of a row is that row's, for the byte that is its word. -/
theorem instr_of_row {i : Instr} {r : DecRow} (hr : i.row? = some r) : ∃ b, encode i = .decByte b ∧ r.instr b = i := by
  cases i <;> cases hr <;> exact ⟨_, rfl, rfl⟩

/-- A row run by itself is `runRow` of its own effect for its own byte. -/
theorem exec_eq_runRow {r : DecRow} {b : Byte} (hr : (r.instr b).row? = some r) (he : encode (r.instr b) = .decByte b)
    (s : State) : exec (r.instr b) s = runRow r b (rowEffect r b) s := by
  cases r <;> cases he <;> rfl

@[simp] theorem row?_instr (r : DecRow) (b : Byte) : (r.instr b).row? = some r := by cases r <;> rfl

/-! ### The table form of the decode map -/

/-- Two rows of one state and one priority ask for different bytes under one mask, or for opposite conditions. -/
theorem decodeTable_rows_exclude : ∀ t ∈ decodeTable, ∀ u ∈ decodeTable, t.stateNumber = u.stateNumber →
    t.priority = u.priority → t = u ∨ (t.mask = u.mask ∧ t.pattern ≠ u.pattern) ∨
      (t.condition = .equalsCsum ∧ u.condition = .differsFromCsum) ∨
      (t.condition = .differsFromCsum ∧ u.condition = .equalsCsum) := by decide +kernel

/-- No two rows of one priority apply together (R54). -/
theorem decodeTable_applies_unique {st : Pos} {csum b : Byte} {t u : TableRow} (ht : t ∈ decodeTable)
    (hu : u ∈ decodeTable) (hta : t.applies st csum b = true) (hua : u.applies st csum b = true)
    (hp : t.priority = u.priority) : t = u := by
  simp only [TableRow.applies, Bool.and_eq_true, beq_iff_eq] at hta hua
  obtain ⟨⟨hts, htm⟩, htc⟩ := hta
  obtain ⟨⟨hus, hum⟩, huc⟩ := hua
  rcases decodeTable_rows_exclude t ht u hu (hts.trans hus.symm) hp with
    heq | ⟨hmask, hpat⟩ | ⟨ht', hu'⟩ | ⟨ht', hu'⟩
  · exact heq
  · exact absurd (by rw [← htm, ← hum, hmask]) hpat
  · simp_all [RowCondition.holds]
  · simp_all [RowCondition.holds]

/-- The table selects the row of the map (R54 against R53). -/
theorem tableSelect_eq_selectRow (st : Pos) (csum b : Byte) :
    tableSelect st csum b = some (selectRow st csum b) := by
  have hff : b &&& 255#8 = b := BitVec.and_allOnes
  fun_cases selectRow st csum b <;>
    simp_all [tableSelect, decodeTable, tableShared, tableLegacy, tableExtended, TableRow.applies, Pos.code,
      RowCondition.holds, markSync, markLegacy, markExt, markReq, markRsp]

end Sys2Proof

namespace Sys2Proof.Machine

/-! ### The outcomes of a row run by itself -/

/-- A committed decoder step is never refused. -/
theorem commitStep_ne_refused (s : State) (r : DecResult) (why : Refusal) : commitStep s r ≠ .refused why := by
  cases r with
  | error f => simp [commitStep]
  | ok answer => simp [commitStep, commitDec]

/-- A row run by itself is refused exactly where the map selects another row (log entry 7). -/
theorem runRow_refused_iff (row : DecRow) (b : Byte) (effect : DecState → DecResult) (s : State) :
    runRow row b effect s = .refused .rowNotSelected ↔ selectRow s.dec.st s.dec.csum b ≠ row := by
  by_cases h : selectRow s.dec.st s.dec.csum b = row
  · simp [runRow_selected h, h, commitStep_ne_refused]
  · simp [runRow, h]

/-! ### The obligations -/

/-- Settles O8: a byte's row by the map that selects it, a frame's row by its layout; every other word is its
instruction's operands. -/
theorem decodeOfEncode : Obligations.DecodeOfEncode := by
  intro i st csum hw hc
  cases hr : i.row? with
  | some r =>
    obtain ⟨b, he, hsel, hi⟩ := selectRow_of_context hr hw hc
    rw [he, decode, hsel, hi]
  | none =>
    cases i <;> cases hr
    case frameLegacyRx.refl d n c p k => exact decodeFrameRx_legacyBytes d n c k (beq_iff_eq.mp hw)
    case frameExtRx.refl d f cl ch nl nh p k => exact decodeFrameRx_extBytes d f cl ch nl nh k (beq_iff_eq.mp hw)
    case frameLegacyTx.refl c p =>
      obtain ⟨hlen, hrow⟩ := frameTxRow_of_wf hw
      exact (decodeFrameTx_bytes c hlen).trans (congrArg _ hrow)
    all_goals rfl

/-- Settles O7: the table selects the mapped row, and rows of one state and priority exclude each other. -/
theorem decodeMapIsExact : Obligations.DecodeMapIsExact := fun st csum b =>
  ⟨tableSelect_eq_selectRow st csum b, fun _ ht _ hu => decodeTable_applies_unique ht hu⟩

/-- Settles O9: a byte decodes to the selected row, a frame to the row of its layout, any other word to its own operands. -/
theorem encodeOfDecode : Obligations.EncodeOfDecode := by
  intro st csum r i h
  cases r
  case decByte b =>
    cases h
    obtain ⟨henc, hctx, -⟩ := selectRow_instr st csum b
    exact ⟨henc, hctx⟩
  case frameRx bytes =>
    obtain ⟨d, n, c, p, k, -, rfl, rfl⟩ | ⟨d, f, cl, ch, nl, nh, p, k, -, rfl, rfl⟩ := decodeFrameRx_cases h
    · exact ⟨rfl, rfl⟩
    · exact ⟨rfl, rfl⟩
  case frameTx bytes =>
    obtain ⟨c, p, -, rfl, rfl⟩ := decodeFrameTx_cases h
    exact ⟨encode_frameTxRow c p, context_frameTxRow c p st csum⟩
  all_goals cases h; exact ⟨rfl, rfl⟩

/-- Settles O10: a row is refused exactly where the map selects another, and the selected row's instruction is the one that
is well formed and in its context. -/
theorem rowsRunOnlyWhereSelected : Obligations.RowsRunOnlyWhereSelected := by
  intro i r s hr
  obtain ⟨b, he, rfl⟩ := instr_of_row hr
  rw [exec_eq_runRow hr he, Ne, runRow_refused_iff, not_not]
  constructor
  · rintro ⟨hw, hc⟩
    obtain ⟨b', he', hsel, -⟩ := selectRow_of_context hr hw hc
    obtain rfl : b' = b := Request.decByte.inj (he'.symm.trans he)
    exact hsel
  · rintro rfl
    obtain ⟨-, hctx, hwf⟩ := selectRow_instr s.dec.st s.dec.csum b
    exact ⟨hwf, hctx⟩

/-- Settles O5: the two arms of `step` for a word. -/
theorem stepRunsDecodedInstruction : Obligations.StepRunsDecodedInstruction := fun _ _ _ h =>
  ⟨fun _ hd => step_op h hd, fun _ hd => step_undecodable h hd⟩

/-- Settles O6: ten fixed words, each decoded by evaluation. -/
theorem wordsDecodeAsWritten : Obligations.WordsDecodeAsWritten := by
  unfold Obligations.WordsDecodeAsWritten
  decide

end Sys2Proof.Machine
end

section
/-! Chunks (41_decoder_legacy.md R81, R95) and whole frames of both branches (R96 to R98, R111). -/

namespace Sys2Proof.Machine

/-! ### A chunk in two parts -/

/-- After a part that answers, the rest of the chunk goes on from its state, and its outputs follow. -/
theorem decFeed_append_ok {u : List Byte} {d d₁ : DecState} {outs : List DecOutput} (v : List Byte)
    (h : decFeed u d = .ok (d₁, outs)) :
    decFeed (u ++ v) d = (decFeed v d₁).map fun r => (r.1, outs ++ r.2) := by
  induction u generalizing d outs with
  | nil =>
    cases h
    cases h : decFeed v d₁ <;> simp [Except.map, h]
  | cons b u ih =>
    cases hs : decStep b d with
    | error f => simp [decFeed, hs] at h
    | ok answer =>
      obtain ⟨d', o⟩ := answer
      rw [decFeed_cons_ok u hs] at h
      cases hu : decFeed u d' with
      | error f => simp [hu] at h
      | ok r =>
        simp only [hu] at h
        cases h
        rw [List.cons_append, decFeed_cons_ok _ hs, ih hu]
        cases decFeed v r.1 <;> simp [Except.map]

/-- A part without output is followed by the rest of the chunk as it stands. -/
theorem decFeed_append_silent {u : List Byte} {d d₁ : DecState} (v : List Byte) (h : decFeed u d = .ok (d₁, [])) :
    decFeed (u ++ v) d = decFeed v d₁ := by
  rw [decFeed_append_ok v h]
  cases decFeed v d₁ <;> rfl

/-- The chunk of one byte is its step. -/
theorem decFeed_singleton {b : Byte} {d d' : DecState} {o : Option DecOutput} (h : decStep b d = .ok (d', o)) :
    decFeed [b] d = .ok (d', o.toList) := by
  simp [decFeed_cons_ok [] h]

theorem execAll_cons_congr {i j : Instr} {s t : State} (rest : List Instr) (h : exec i s = exec j t) :
    execAll (i :: rest) s = execAll (j :: rest) t := by
  simp only [execAll, h]

/-- R95: a chunk is its first part and then its second, faults included. -/
theorem exec_decFeed_append (u v : List Byte) (s : State) :
    exec (.decFeed (u ++ v)) s = execAll [.decFeed u, .decFeed v] s := by
  induction u generalizing s with
  | nil => rw [List.nil_append, execAll_cons_next (exec_decFeed_nil s), execAll_singleton]
  | cons b u ih =>
    cases h : exec (.decStep b) s with
    | next t =>
      have hu : exec (.decFeed (b :: u)) s = exec (.decFeed u) t := by
        rw [exec_decFeed_cons, execAll_cons_next h, execAll_singleton]
      rw [List.cons_append, exec_decFeed_cons, execAll_cons_next h, execAll_singleton, ih, execAll_cons_congr _ hu]
    | fault f => simp only [List.cons_append, execAll, exec_decFeed_cons, h]
    | refused r => simp only [List.cons_append, execAll, exec_decFeed_cons, h]

/-- R95 for any number of cuts. -/
theorem execAll_map_decFeed (chunks : List (List Byte)) (s : State) :
    execAll (chunks.map .decFeed) s = exec (.decFeed chunks.flatten) s := by
  induction chunks generalizing s with
  | nil => exact (exec_decFeed_nil s).symm
  | cons c chunks ih =>
    rw [List.flatten_cons, exec_decFeed_append, List.map_cons]
    cases h : exec (.decFeed c) s with
    | next t => rw [execAll_cons_next h, execAll_cons_next h, ih, execAll_singleton]
    | fault f => simp only [execAll, h]
    | refused r => simp only [execAll, h]

/-! ### The payload of a frame -/

section payload
variable {f : Byte → Byte → Byte} {stay leave : Pos} {p : List Byte} {d : DecState}

/-- `stay` is a data position whose bytes enter the checksum by `f`, and `leave` its checksum position (R92, R108). -/
def StoresPayload (f : Byte → Byte → Byte) (stay leave : Pos) : Prop :=
  ∀ (d : DecState) (b : Byte), d.st = stay → decStep b d = storePayload b (f d.csum b) stay leave d

theorem storesPayload_legacy : StoresPayload xor8 .readData .readCrc := fun _ b h => decStep_readData b h

theorem storesPayload_extended : StoresPayload crc8 .extData .extChecksum := fun _ b h => decStep_extData b h

/-- The bytes `counter` still has to count fill the buffer from `counter` on, silently, and lead to the checksum. -/
theorem decFeed_payload (hstores : StoresPayload f stay leave) (hne : p ≠ []) (hst : d.st = stay)
    (hlen : d.counter.toNat + p.length = d.len.toNat) :
    ∃ m, decFeed p d =
        .ok ({ d with payload := m, csum := p.foldl f d.csum, counter := d.len, st := leave }, []) ∧
      (∀ i (h : i < p.length), memRead m (d.counter.toNat + i) = .ok p[i]) ∧
      ∀ a, a < d.counter.toNat ∨ d.len.toNat ≤ a → memRead m a = memRead d.payload a := by
  induction p generalizing d with
  | nil => exact absurd rfl hne
  | cons b rest ih =>
    have hbound := d.len.isLt
    rw [List.length_cons] at hlen
    have hin : d.counter.toNat < Config.payloadMax := by simp only [Config.payloadMax]; omega
    have hcount : (d.counter + 1#16).toNat = d.counter.toNat + 1 := toNat_add_one (by omega)
    have hstep := (hstores d b hst).trans (storePayload_ok b _ stay leave d hin)
    rw [decFeed_cons_silent rest hstep]
    cases rest with
    | nil =>
      have hlast : d.counter + 1#16 = d.len := half_eq_of_toNat (by simpa [hcount] using hlen)
      refine ⟨d.payload.insert d.counter.toNat b, by simp [hlast], fun i hi => ?_, fun a ha => memRead_insert_other _ b ?_⟩
      · obtain rfl : i = 0 := by simpa using hi
        exact memRead_insert_same _ b hin
      · simp only [List.length_nil] at hlen; omega
    | cons b' rest =>
      rw [List.length_cons] at hlen
      have hmore : d.counter + 1#16 ≠ d.len := fun h => by rw [← h, hcount] at hlen; omega
      simp only [if_neg hmore]
      obtain ⟨m, hfeed, hread, hother⟩ := ih (d := { d with
        payload := d.payload.insert d.counter.toNat b, csum := f d.csum b, counter := d.counter + 1#16, st := stay })
        (by simp) rfl (by simp only [hcount, List.length_cons]; omega)
      simp only [hcount] at hread hother
      refine ⟨m, hfeed, fun i hi => ?_, fun a ha => ?_⟩
      · cases i with
        | zero =>
          exact (hother _ (.inl (Nat.lt_succ_self _))).trans (memRead_insert_same _ b hin)
        | succ i =>
          have := hread i (by simpa using hi)
          simpa [Nat.add_assoc, Nat.add_comm 1 i] using this
      · rw [hother a (by omega), memRead_insert_other _ b (by omega)]

/-- From the end of the header on, the payload leads silently to the checksum position, where the buffer holds it. -/
theorem decFeed_beginPayload (hstores : StoresPayload f stay leave) (hlen : p.length = d.len.toNat) :
    ∃ m n, decFeed p (beginPayload stay leave d) =
        .ok ({ d with payload := m, csum := p.foldl f d.csum, counter := n, st := leave }, []) ∧
      memReadList m 0 d.len.toNat = .ok p ∧ ∀ a, p.length ≤ a → memRead m a = memRead d.payload a := by
  by_cases hz : d.len = 0#16
  · obtain rfl : p = [] := List.length_eq_zero_iff.mp (by simpa [hz] using hlen)
    exact ⟨d.payload, d.counter, by simp [beginPayload_of_empty stay leave hz], by simp [hz, memReadList], fun _ _ => rfl⟩
  · have hne : p ≠ [] := by
      rintro rfl
      exact hz (half_eq_of_toNat (by simpa using hlen.symm))
    rw [beginPayload_of_nonempty stay leave hz]
    obtain ⟨m, hfeed, hread, hother⟩ := decFeed_payload (d := { d with counter := 0#16, st := stay }) hstores hne rfl
      (by simpa using hlen)
    exact ⟨m, _, hfeed, (memReadList_eq_ok _ _ _ _).mpr ⟨hlen, by simpa using hread⟩,
      fun a ha => hother a (.inr (by simpa [hlen] using ha))⟩

/-! ### A whole frame -/

/-- The byte at a checksum position gives the message the buffer holds, or the diagnostic, and leads to `IDLE`. -/
theorem decStep_closes (k : Byte) (hst : d.st = .readCrc ∨ d.st = .extChecksum)
    (hp : memReadList d.payload 0 d.len.toNat = .ok p) :
    decStep k d = .ok ({ d with st := .idle },
      some (if k = d.csum then .msg d.isResponse d.command p else .checksumMismatch d.command)) := by
  rw [decStep_of_checksum k hst]
  split
  · exact emitMessage_ok hp
  · rfl

/-- A frame after its header `header`: silent up to its last byte, which gives the one output. -/
theorem decFeed_frame {header : List Byte} {d₀ : DecState} (hstores : StoresPayload f stay leave)
    (hleave : leave = .readCrc ∨ leave = .extChecksum) (hheader : decFeed header d₀ = .ok (beginPayload stay leave d, []))
    (hlen : p.length = d.len.toNat) (k : Byte) :
    ∃ d₁ d₂, decFeed (header ++ p) d₀ = .ok (d₁, []) ∧
      decFeed (header ++ p ++ [k]) d₀ = .ok (d₂,
        [if k = p.foldl f d.csum then .msg d.isResponse d.command p else .checksumMismatch d.command]) ∧
      d₂.st = .idle ∧ ∀ a, p.length ≤ a → memRead d₂.payload a = memRead d.payload a := by
  obtain ⟨m, n, hfeed, hread, hother⟩ := decFeed_beginPayload hstores hlen
  have hbody := (decFeed_append_silent p hheader).trans hfeed
  exact ⟨_, _, hbody, (decFeed_append_silent [k] hbody).trans (decFeed_singleton (decStep_closes k hleave hread)), rfl,
    hother⟩

end payload

/-! ### The two headers -/

theorem zext16_toNat (b : Byte) : (zext16 b).toNat = b.toNat := BitVec.toNat_setWidth_of_le (by decide)

section header
variable {d : DecState} {dir : Byte}

/-- R82, R84, R86, R87, R90, R91: the header of a legacy frame. -/
theorem decFeed_legacyHeader (n c : Byte) (hst : d.st = .idle) (hdir : dir = 0x21#8 ∨ dir = 0x3E#8) :
    decFeed [0x24#8, 0x4D#8, dir, n, c] d = .ok (beginPayload .readData .readCrc { d with
      st := .readCmd, isResponse := dir == 0x3E#8, command := zext16 c, len := zext16 n, counter := 0#16,
      csum := xor8 n c }, []) := by
  rcases hdir with rfl | rfl <;>
    simp [decFeed, decStep_idle, decStep_awaitFormat, decStep_awaitDirection, decStep_readLen, decStep_readCmd, hst,
      markSync, markLegacy, markReq, markRsp, startMessage]

/-- R82, R85, R100, R101, R103 to R107: the header of an extended frame. -/
theorem decFeed_extHeader (fl cl ch nl nh : Byte) (hst : d.st = .idle) (hdir : dir = 0x21#8 ∨ dir = 0x3E#8) :
    decFeed [0x24#8, 0x58#8, dir, fl, cl, ch, nl, nh] d = .ok (beginPayload .extData .extChecksum { d with
      st := .extLenHi, isResponse := dir == 0x3E#8, command := ch ++ cl, len := nh ++ nl, counter := 0#16,
      csum := crc8List 0x00#8 [fl, cl, ch, nl, nh] }, []) := by
  rcases hdir with rfl | rfl <;>
    simp [decFeed, decStep_idle, decStep_awaitFormat, decStep_extAwaitDirection, decStep_extFlags, decStep_extIdLo,
      decStep_extIdHi, decStep_extLenLo, decStep_extLenHi, hst, markSync, markLegacy, markExt, markReq, markRsp,
      startMessage, crc8List, crcSeed, assemble, lowByte, zext16]

end header

/-! ### Whole frames as instructions -/

theorem exec_frameLegacyRx (d n c k : Byte) (p : List Byte) (s : State) :
    exec (.frameLegacyRx d n c p k) s = exec (.decFeed ([0x24#8, 0x4D#8, d, n, c] ++ p ++ [k])) s := by
  rw [List.append_assoc]; rfl

theorem exec_frameExtRx (d f cl ch nl nh k : Byte) (p : List Byte) (s : State) :
    exec (.frameExtRx d f cl ch nl nh p k) s =
      exec (.decFeed ([0x24#8, 0x58#8, d, f, cl, ch, nl, nh] ++ p ++ [k])) s := by
  rw [List.append_assoc]; rfl

/-- A chunk whose decoding is known, as an outcome. -/
theorem exec_decFeed_ok {bytes : List Byte} {s : State} {d : DecState} {outs : List DecOutput}
    (h : decFeed bytes s.dec = .ok (d, outs)) :
    exec (.decFeed bytes) s = .next { s with dec := d, decOut := s.decOut ++ outs } := by
  rw [exec_decFeed, h]; rfl

/-- R96, R97: a legacy frame from `IDLE`, whatever its last byte. -/
theorem exec_legacyFrame {s : State} {d n c : Byte} {p : List Byte} (k : Byte) (hst : s.dec.st = .idle)
    (hd : d = 0x21#8 ∨ d = 0x3E#8) (hlen : p.length = n.toNat) :
    (∃ t, exec (.frameLegacyRx d n c p k) s = .next t ∧ t.dec.st = .idle ∧
      t.decOut = s.decOut ++ [if k = p.foldl (fun a x => a ^^^ x) (n ^^^ c) then .msg (d == 0x3E#8) (c.setWidth 16) p
        else .checksumMismatch (c.setWidth 16)] ∧
      ∀ a, p.length ≤ a → memRead t.dec.payload a = memRead s.dec.payload a) ∧
    ∃ t, exec (.decFeed ([0x24#8, 0x4D#8, d, n, c] ++ p)) s = .next t ∧ t.decOut = s.decOut := by
  obtain ⟨d₁, d₂, hbody, hframe, hidle, hother⟩ := decFeed_frame storesPayload_legacy (.inl rfl)
    (decFeed_legacyHeader n c hst hd) (p := p) (hlen.trans (zext16_toNat n).symm) k
  rw [exec_frameLegacyRx]
  exact ⟨⟨_, exec_decFeed_ok hframe, hidle, rfl, hother⟩, _, exec_decFeed_ok hbody, List.append_nil _⟩

/-- R111: an extended frame from `IDLE`, whatever its last byte. -/
theorem exec_extFrame {s : State} {d f cl ch nl nh : Byte} {p : List Byte} (k : Byte) (hst : s.dec.st = .idle)
    (hd : d = 0x21#8 ∨ d = 0x3E#8) (hlen : p.length = (nh ++ nl : Half).toNat) :
    (∃ t, exec (.frameExtRx d f cl ch nl nh p k) s = .next t ∧ t.dec.st = .idle ∧
      t.decOut = s.decOut ++ [if k = crc8List 0x00#8 ([f, cl, ch, nl, nh] ++ p) then .msg (d == 0x3E#8) (ch ++ cl) p
        else .checksumMismatch (ch ++ cl)] ∧
      ∀ a, p.length ≤ a → memRead t.dec.payload a = memRead s.dec.payload a) ∧
    ∃ t, exec (.decFeed ([0x24#8, 0x58#8, d, f, cl, ch, nl, nh] ++ p)) s = .next t ∧ t.decOut = s.decOut := by
  obtain ⟨d₁, d₂, hbody, hframe, hidle, hother⟩ := decFeed_frame storesPayload_extended (.inr rfl)
    (decFeed_extHeader f cl ch nl nh hst hd) (p := p) hlen k
  rw [exec_frameExtRx, crc8List_append, crc8List_eq_foldl _ p]
  exact ⟨⟨_, exec_decFeed_ok hframe, hidle, rfl, hother⟩, _, exec_decFeed_ok hbody, List.append_nil _⟩

/-! ### Bytes that are no frame -/

/-- R98: in `IDLE` bytes without `$` change nothing. -/
theorem decFeed_garbage {d : DecState} {g : List Byte} (hst : d.st = .idle) (hg : 0x24#8 ∉ g) :
    decFeed g d = .ok (d, []) := by
  induction g with
  | nil => rfl
  | cons b g ih =>
    rw [List.mem_cons, not_or] at hg
    obtain ⟨hb, hrest⟩ := hg
    have hskip : decStep b d = .ok (d, none) := (decStep_idle b hst).trans (if_neg (Ne.symm hb))
    rw [decFeed_cons_silent g hskip, ih hrest]

/-- R127: the encoder's direction byte sends the decoder back to `IDLE`, silently. -/
theorem decFeed_ownHeader {d : DecState} (hst : d.st = .idle) :
    ∃ d', decFeed [0x24#8, 0x4D#8, 0x3C#8] d = .ok (d', []) ∧ d'.st = .idle := by
  refine ⟨{ startMessage d with st := .idle }, ?_, rfl⟩
  simp [decFeed, decStep_idle, decStep_awaitFormat, decStep_awaitDirection, hst, markSync, markLegacy, markReq, markRsp]

/-- The frame an idle serialiser outputs for a request it takes. -/
theorem exec_encLegacy_frame {s t : State} {c : Byte} {p frame : List Byte} (hs : s.enc.st = .encIdle)
    (h : exec (.encLegacy c p) s = .next t) (hout : t.encOut = s.encOut ++ frame) :
    p.length ≤ Config.encPayloadMax ∧ frame = legacyTxBytes c p := by
  obtain ⟨hlen, ⟨-, rfl⟩ | ⟨hbusy, -⟩⟩ := encRequest_cases h
  · exact ⟨hlen, (List.append_cancel_left hout).symm⟩
  · exact absurd hs hbusy

/-! ### The obligations -/

/-- Settles O31: the frame whose last byte is its checksum. -/
theorem legacyFrameAccepted : Obligations.LegacyFrameAccepted := by
  intro s d n c k p hst hd hlen hk
  obtain ⟨⟨t, hexec, hidle, hout, hother⟩, hbody⟩ := exec_legacyFrame (c := c) k hst hd hlen
  exact ⟨⟨t, hexec, hidle, by rw [hout, if_pos hk], hother⟩, hbody⟩

/-- Settles O32: the frame whose last byte is another. -/
theorem legacyFrameRejected : Obligations.LegacyFrameRejected := by
  intro s d n c k p hst hd hlen hk
  obtain ⟨⟨t, hexec, hidle, hout, hother⟩, -⟩ := exec_legacyFrame (c := c) k hst hd hlen
  exact ⟨t, hexec, hidle, by rw [hout, if_neg hk], hother⟩

/-- Settles O33: the last byte is the CRC or it is not. -/
theorem extFrameAcceptedOrRejected : Obligations.ExtFrameAcceptedOrRejected := by
  intro s d f cl ch nl nh k p hst hd hlen
  obtain ⟨⟨t, hexec, hidle, hout, hother⟩, hbody⟩ := exec_extFrame (f := f) k hst hd hlen
  exact ⟨t, hexec, hidle, fun hk => by rw [hout, if_pos hk], fun hk => by rw [hout, if_neg hk], hother, hbody⟩

/-- Settles O30: induction on the first part, one step at a time. -/
theorem chunkIndependence : Obligations.ChunkIndependence := fun s u v => exec_decFeed_append u v s

/-- Settles O29: the invariant accepts every chunk, and the layouts are their bytes. -/
theorem feedAcceptsEveryChunk : Obligations.FeedAcceptsEveryChunk := by
  refine ⟨fun s bytes hinv => ?_, fun s d n c k p => exec_frameLegacyRx d n c k p s,
    fun s d f cl ch nl nh k p => exec_frameExtRx d f cl ch nl nh k p s⟩
  obtain ⟨d, outs, hfeed, hinv'⟩ := decFeed_inv bytes hinv
  exact ⟨_, exec_decFeed_ok hfeed, hinv'⟩

/-- Settles O34: each byte is skipped. -/
theorem garbageWithoutSyncIgnored : Obligations.GarbageWithoutSyncIgnored := fun s g hst hg => by
  rw [exec_decFeed_ok (decFeed_garbage hst hg), List.append_nil]

/-- Settles O51: the third byte ends the message, and what follows has no `$`. -/
theorem loopBackIsDropped : Obligations.LoopBackIsDropped := by
  intro s u t c p frame hs henc hout hu
  obtain ⟨-, rfl⟩ := exec_encLegacy_frame hs henc hout
  obtain ⟨d, hhead, hidle⟩ := decFeed_ownHeader hu
  refine ⟨⟨_, exec_decFeed_ok hhead, hidle, List.append_nil _⟩, fun hrest => ?_⟩
  have hall := (decFeed_append_silent _ hhead).trans (decFeed_garbage hidle hrest)
  exact ⟨_, exec_decFeed_ok hall, hidle, List.append_nil _⟩

/-- Settles O52: the patched frame is a legacy frame with its own checksum, and cutting it changes nothing. -/
theorem patchedRoundTrip : Obligations.PatchedRoundTrip := by
  intro s u t c d p frame chunks hs henc hout hu hd hcut
  obtain ⟨hlen, rfl⟩ := exec_encLegacy_frame hs henc hout
  have hframe : exec (.decFeed ((legacyTxBytes c p).set 2 d)) u =
      exec (.frameLegacyRx d (lengthByte p) c p (legacyChecksum (lengthByte p) c p)) u := rfl
  obtain ⟨⟨v, hexec, hidle, hmsg, -⟩, -⟩ := exec_legacyFrame (c := c) (legacyChecksum (lengthByte p) c p) hu hd
    (lengthByte_toNat hlen).symm
  rw [if_pos (legacyChecksum_eq_foldl _ c p)] at hmsg
  exact ⟨v, by rw [execAll_map_decFeed, hcut, hframe, hexec], hidle, hmsg⟩

end Sys2Proof.Machine
end

section
/-! What the decoder's rows write, where they fault, and what can and cannot steer them: the write sets (10_state.md R28), the
buffer's faults, framing inside a frame (R43, R163), and registers and buffer bytes left over from before `IDLE` (R27, R28). -/

namespace Sys2Proof.Machine

/-! ### From a row run by itself to its effect -/

section effect
variable {i : Instr} {r : DecRow} {b : Byte} {s t : State} {d d' : DecState} {o : Option DecOutput}

/-- A row that answers a next state did its effect on the Decoder State. -/
theorem exec_row_effect (hr : i.row? = some r) (h : exec i s = .next t) : ∃ b o, rowEffect r b s.dec = .ok (t.dec, o) := by
  obtain ⟨b, he, rfl⟩ := instr_of_row hr
  rw [exec_eq_runRow hr he] at h
  obtain ⟨-, d, o, heff, rfl⟩ := runRow_cases h
  exact ⟨b, o, heff⟩

/-- A row whose effect faults stops the machine with that fault. -/
theorem exec_row_fault {f : Fault} (hr : i.row? = some r) (he : encode i = .decByte b) (hw : i.wf = true)
    (hc : i.context s.dec.st s.dec.csum = true) (heff : rowEffect r b s.dec = .error f) : exec i s = .fault f := by
  rw [exec_row hr he hw hc, heff]
  rfl

/-- `DEC.STEP` is the row the map selects (R80). -/
theorem exec_selectRow_instr (b : Byte) (s : State) :
    exec ((selectRow s.dec.st s.dec.csum b).instr b) s = exec (.decStep b) s := by
  obtain ⟨henc, hctx, hwf⟩ := selectRow_instr s.dec.st s.dec.csum b
  exact exec_row (row?_instr _ b) henc hwf hctx

/-! ### The write column -/

/-- What R28 lets a row change: `d'` differs from `d` in the registers of the row's write column only. -/
def WritesOnly (r : DecRow) (d d' : DecState) : Prop :=
  match r with
  | .idleSkip => d' = d
  | .idleSync => d'.payload = d.payload
  | .fmtLegacy | .fmtExt | .fmtDesync | .dirDesync | .xdirDesync | .crcOk | .crcBad | .xcrcOk | .xcrcBad =>
    d' = { d with st := d'.st }
  | .dirReq | .dirRsp | .xdirReq | .xdirRsp => d' = { d with st := d'.st, isResponse := d'.isResponse }
  | .len | .xlenLo => d' = { d with st := d'.st, len := d'.len, csum := d'.csum }
  | .cmd =>
    d' = { d with st := d'.st, command := d'.command, csum := d'.csum, counter := d'.counter } ∧
      (d.len = 0#16 → d'.counter = d.counter)
  | .xflags => d' = { d with st := d'.st, csum := d'.csum }
  | .xidLo | .xidHi => d' = { d with st := d'.st, csum := d'.csum, command := d'.command }
  | .xlenHi =>
    d' = { d with st := d'.st, csum := d'.csum, len := d'.len, counter := d'.counter } ∧
      (d'.len = 0#16 → d'.counter = d.counter)
  | .data | .xdata =>
    d' = { d with st := d'.st, csum := d'.csum, counter := d'.counter, payload := d'.payload } ∧
      ∀ a, a ≠ d.counter.toNat → memRead d'.payload a = memRead d.payload a

/-- Every row keeps to its write column. -/
theorem rowEffect_writesOnly (h : rowEffect r b d = .ok (d', o)) : WritesOnly r d d' := by
  cases r
  case crcOk | xcrcOk => obtain ⟨p, -, -, rfl⟩ := emitMessage_cases h; rfl
  case data | xdata =>
    obtain ⟨-, -, rfl⟩ := storePayload_cases h
    exact ⟨rfl, fun a ha => memRead_insert_other _ b ha⟩
  case cmd =>
    cases h
    by_cases hz : d.len = 0#16
    · simp [WritesOnly, beginPayload_of_empty, hz]
    · simp [WritesOnly, beginPayload_of_nonempty, hz]
  case xlenHi =>
    cases h
    by_cases hz : assemble b (lowByte d.len) = 0#16
    · simp [WritesOnly, beginPayload_of_empty, hz]
    · simp [WritesOnly, beginPayload_of_nonempty, hz]
  all_goals cases h; rfl

/-! ### Faults of the buffer -/

theorem storePayload_full (b csum : Byte) (stay leave : Pos) (h : d.counter.toNat = 65535) :
    storePayload b csum stay leave d = .error .payloadOutOfRange := by
  simp [storePayload, memWrite, h, Config.payloadMax]

theorem memReadList_unwritten {m : Memory} {a n : Nat} (hn : a + n ≤ Config.payloadMax)
    (h : ∃ i, i < n ∧ m.lookup (a + i) = none) : memReadList m a n = .error .payloadUnwritten := by
  induction n generalizing a with
  | zero => obtain ⟨i, hi, -⟩ := h; omega
  | succ n ih =>
    obtain ⟨i, hi, hnone⟩ := h
    have ha : a < Config.payloadMax := by omega
    cases hl : m.lookup a with
    | none => simp [memReadList, memRead, ha, hl]
    | some v =>
      cases i with
      | zero => simp [hl] at hnone
      | succ i =>
        have hrest := ih (a := a + 1) (by omega) ⟨i, by omega, by rw [← hnone]; congr 1; omega⟩
        simp [memReadList, memRead_of_lookup ha hl, hrest]

theorem emitMessage_unwritten (h : ∃ i, i < d.len.toNat ∧ d.payload.lookup i = none) :
    emitMessage d = .error .payloadUnwritten := by
  have hlen := d.len.isLt
  have hread : memReadList d.payload 0 d.len.toNat = .error .payloadUnwritten :=
    memReadList_unwritten (by simp only [Config.payloadMax]; omega) (by simpa using h)
  simp [emitMessage, hread]

/-! ### Where a row leads -/

theorem beginPayload_st (data checksum : Pos) (d : DecState) :
    (beginPayload data checksum d).st = data ∨ (beginPayload data checksum d).st = checksum := by
  by_cases hz : d.len = 0#16
  · exact .inr (by rw [beginPayload_of_empty _ _ hz])
  · exact .inl (by rw [beginPayload_of_nonempty _ _ hz])

/-- A row of a position outside `IDLE` does not lead to `AWAIT_FORMAT`. -/
theorem rowEffect_st_ne_awaitFormat (hr : r ≠ .idleSync ∧ r ≠ .idleSkip) (h : rowEffect r b d = .ok (d', o)) :
    d'.st ≠ .awaitFormat := by
  cases r
  case idleSync => exact absurd rfl hr.1
  case idleSkip => exact absurd rfl hr.2
  case data | xdata =>
    obtain ⟨-, -, rfl⟩ := storePayload_cases h
    dsimp only
    split <;> simp
  case crcOk | xcrcOk => obtain ⟨p, -, -, rfl⟩ := emitMessage_cases h; simp
  case cmd | xlenHi => cases h; rcases beginPayload_st _ _ _ with hst | hst <;> rw [hst] <;> simp
  all_goals cases h; simp

/-- The rows of `IDLE` are selected in `IDLE` alone. -/
theorem selectRow_ne_idle {st : Pos} (csum b : Byte) (h : st ≠ .idle) :
    selectRow st csum b ≠ .idleSync ∧ selectRow st csum b ≠ .idleSkip := by
  fun_cases selectRow st csum b <;> simp_all

end effect

/-! ### Bytes that are never framing -/

/-- R43: at a flags, command or payload position the byte steers nothing. -/
theorem decStep_framing {d d₁ d₂ : DecState} {b₁ b₂ : Byte} {o₁ o₂ : Option DecOutput}
    (hst : d.st = .readCmd ∨ d.st = .readData ∨ d.st = .extFlags ∨ d.st = .extIdLo ∨ d.st = .extIdHi ∨ d.st = .extData)
    (h₁ : decStep b₁ d = .ok (d₁, o₁)) (h₂ : decStep b₂ d = .ok (d₂, o₂)) :
    d₁.st = d₂.st ∧ d₁.counter = d₂.counter ∧ d₁.len = d₂.len := by
  rcases hst with h | h | h | h | h | h
  · rw [decStep_readCmd _ h] at h₁ h₂
    cases h₁
    cases h₂
    by_cases hz : d.len = 0#16
    · simp [beginPayload, payloadEmpty, hz]
    · simp [beginPayload, payloadEmpty, hz]
  · rw [decStep_readData _ h] at h₁ h₂
    obtain ⟨-, -, rfl⟩ := storePayload_cases h₁
    obtain ⟨-, -, rfl⟩ := storePayload_cases h₂
    exact ⟨rfl, rfl, rfl⟩
  · rw [decStep_extFlags _ h] at h₁ h₂; cases h₁; cases h₂; exact ⟨rfl, rfl, rfl⟩
  · rw [decStep_extIdLo _ h] at h₁ h₂; cases h₁; cases h₂; exact ⟨rfl, rfl, rfl⟩
  · rw [decStep_extIdHi _ h] at h₁ h₂; cases h₁; cases h₂; exact ⟨rfl, rfl, rfl⟩
  · rw [decStep_extData _ h] at h₁ h₂
    obtain ⟨-, -, rfl⟩ := storePayload_cases h₁
    obtain ⟨-, -, rfl⟩ := storePayload_cases h₂
    exact ⟨rfl, rfl, rfl⟩

/-! ### A decoder with more in its buffer, and with other registers in `IDLE` -/

/-- Every byte that can be read from `m` is read alike from `m'`. -/
def Memory.Extends (m m' : Memory) : Prop := ∀ a v, memRead m a = .ok v → memRead m' a = .ok v

theorem Memory.Extends.insert {m m' : Memory} (h : m.Extends m') {a : Nat} (v : Byte) (ha : a < Config.payloadMax) :
    Memory.Extends (m.insert a v) (m'.insert a v) := by
  intro i w hi
  by_cases hia : i = a
  · subst hia
    rw [memRead_insert_same _ v ha] at hi ⊢
    exact hi
  · rw [memRead_insert_other _ v hia] at hi ⊢
    exact h i w hi

theorem Memory.Extends.memReadList {m m' : Memory} (h : m.Extends m') {a n : Nat} {p : List Byte}
    (hp : memReadList m a n = .ok p) : memReadList m' a n = .ok p := by
  rw [memReadList_eq_ok] at hp ⊢
  obtain ⟨hlen, hbytes⟩ := hp
  exact ⟨hlen, fun i hi => h _ _ (hbytes i hi)⟩

section biggerBuffer
variable {b csum : Byte} {stay leave : Pos} {d d' : DecState} {o : Option DecOutput} {m : Memory}

theorem storePayload_extends (hm : Memory.Extends d.payload m) (h : storePayload b csum stay leave d = .ok (d', o)) :
    ∃ m', storePayload b csum stay leave { d with payload := m } = .ok ({ d' with payload := m' }, o) ∧
      Memory.Extends d'.payload m' := by
  obtain ⟨hin, rfl, rfl⟩ := storePayload_cases h
  exact ⟨_, storePayload_ok b csum stay leave _ hin, hm.insert b hin⟩

theorem emitMessage_extends (hm : Memory.Extends d.payload m) (h : emitMessage d = .ok (d', o)) :
    ∃ m', emitMessage { d with payload := m } = .ok ({ d' with payload := m' }, o) ∧ Memory.Extends d'.payload m' := by
  obtain ⟨p, hp, rfl, rfl⟩ := emitMessage_cases h
  exact ⟨m, emitMessage_ok (d := { d with payload := m }) (hm.memReadList hp), hm⟩

theorem beginPayload_extends {data checksum : Pos}
    (h : .ok (beginPayload data checksum d, none) = Except.ok (ε := Fault) (d', o)) (hm : Memory.Extends d.payload m) :
    ∃ m', .ok (beginPayload data checksum { d with payload := m }, none) =
        Except.ok (ε := Fault) ({ d' with payload := m' }, o) ∧ Memory.Extends d'.payload m' := by
  cases h
  refine ⟨m, ?_, ?_⟩ <;> unfold beginPayload <;> split
  · rfl
  · rfl
  · exact hm
  · exact hm

/-- A row answers alike, and with the same output, when the buffer holds more. -/
theorem rowEffect_extends {r : DecRow} (hm : Memory.Extends d.payload m) (h : rowEffect r b d = .ok (d', o)) :
    ∃ m', rowEffect r b { d with payload := m } = .ok ({ d' with payload := m' }, o) ∧
      Memory.Extends d'.payload m' := by
  cases r
  case data | xdata => exact storePayload_extends hm h
  case crcOk | xcrcOk => exact emitMessage_extends hm h
  case cmd | xlenHi => exact beginPayload_extends h hm
  all_goals cases h; exact ⟨m, rfl, hm⟩

end biggerBuffer

/-- `e` answers every byte as `d` does: the same position, in which, outside `IDLE`, all registers agree, and at least the
same buffer. -/
structure DecState.Covers (e d : DecState) : Prop where
  st : e.st = d.st
  registers : d.st ≠ .idle → e = { d with payload := e.payload }
  payload : Memory.Extends d.payload e.payload

section covers
variable {d d' e : DecState} {o : Option DecOutput}

theorem decStep_covers {b : Byte} (hcov : e.Covers d) (h : decStep b d = .ok (d', o)) :
    ∃ e', decStep b e = .ok (e', o) ∧ e'.Covers d' := by
  obtain ⟨hst, hregs, hmem⟩ := hcov
  by_cases hidle : d.st = .idle
  · rw [decStep_idle b hidle] at h
    rw [decStep_idle b (hst.trans hidle)]
    split_ifs at h ⊢
    · cases h
      exact ⟨_, rfl, rfl, fun _ => rfl, hmem⟩
    · cases h
      exact ⟨_, rfl, hst, hregs, hmem⟩
  · obtain ⟨m', heff, hmem'⟩ := rowEffect_extends hmem h
    have hrow : selectRow e.st e.csum b = selectRow d.st d.csum b := by rw [hregs hidle]
    exact ⟨{ d' with payload := m' }, by rw [decStep, hrow, hregs hidle]; exact heff, rfl, fun _ => rfl, hmem'⟩

theorem decFeed_covers {bytes : List Byte} {outs : List DecOutput} (hcov : e.Covers d)
    (h : decFeed bytes d = .ok (d', outs)) : ∃ e', decFeed bytes e = .ok (e', outs) ∧ e'.Covers d' := by
  induction bytes generalizing d e outs with
  | nil => cases h; exact ⟨e, rfl, hcov⟩
  | cons b rest ih =>
    cases hs : decStep b d with
    | error f => simp [decFeed, hs] at h
    | ok answer =>
      obtain ⟨d₁, o⟩ := answer
      obtain ⟨e₁, hs', hcov₁⟩ := decStep_covers hcov hs
      rw [decFeed_cons_ok rest hs] at h
      rw [decFeed_cons_ok rest hs']
      cases hr : decFeed rest d₁ with
      | error f => simp [hr] at h
      | ok r =>
        simp only [hr] at h
        cases h
        obtain ⟨e', hr', hcov'⟩ := ih hcov₁ hr
        exact ⟨e', by rw [hr'], hcov'⟩

/-- Every decoder in `IDLE` answers as the decoder after power-up. -/
theorem covers_reset (h : e.st = .idle) : e.Covers DecState.reset where
  st := h
  registers hne := absurd rfl hne
  payload a v hv := by
    have hnone := lookup_of_memRead hv
    cases hnone

theorem exec_decFeed_from_idle {s : State} {bytes : List Byte} {outs : List DecOutput} (hst : s.dec.st = .idle)
    (h : decFeed bytes DecState.reset = .ok (d, outs)) :
    ∃ t, exec (.decFeed bytes) s = .next t ∧ t.decOut = s.decOut ++ outs ∧ t.dec.st = d.st := by
  obtain ⟨e, hfeed, hcov⟩ := decFeed_covers (covers_reset hst) h
  exact ⟨_, exec_decFeed_ok hfeed, rfl, hcov.st⟩

end covers

/-! ### The obligations -/

/-- Settles O20: the write outside the buffer, and the first byte that nothing has written. -/
theorem bufferFaults : Obligations.BufferFaults := by
  refine fun s b => ⟨fun hfull => ⟨fun h => ?_, fun h => ?_⟩, fun hb hnone => ⟨fun h => ?_, fun h => ?_⟩⟩
  · exact exec_row_fault rfl rfl rfl (beq_iff_eq.mpr h) (storePayload_full _ _ _ _ hfull)
  · exact exec_row_fault rfl rfl rfl (beq_iff_eq.mpr h) (storePayload_full _ _ _ _ hfull)
  · exact exec_row_fault rfl rfl rfl (Bool.and_eq_true_iff.mpr ⟨beq_iff_eq.mpr h, beq_iff_eq.mpr hb⟩)
      (emitMessage_unwritten hnone)
  · exact exec_row_fault rfl rfl rfl (Bool.and_eq_true_iff.mpr ⟨beq_iff_eq.mpr h, beq_iff_eq.mpr hb⟩)
      (emitMessage_unwritten hnone)

/-- Settles O26: the selected row's instruction, and the invariant under every byte. -/
theorem stepDispatchesToOneRow : Obligations.StepDispatchesToOneRow := by
  refine fun s b => ⟨(exec_selectRow_instr b s).symm, fun hinv => ?_⟩
  obtain ⟨d, o, hstep, hinv'⟩ := decStep_inv b hinv
  exact ⟨_, by rw [exec_decStep, hstep]; rfl, hinv'⟩

/-- Settles O35: no row of a position outside `IDLE` leads to `AWAIT_FORMAT`. -/
theorem noRestartInsideFrame : Obligations.NoRestartInsideFrame := by
  intro s t b hst h
  rw [exec_decStep] at h
  obtain ⟨d, o, hstep, rfl⟩ := commitStep_cases h
  exact rowEffect_st_ne_awaitFormat (selectRow_ne_idle _ b hst) hstep

/-- Settles O36: at each of these positions the row's branch does not look at the byte. -/
theorem payloadIsNeverFraming : Obligations.PayloadIsNeverFraming := by
  intro s t u b b' hst ht hu
  rw [exec_decStep] at ht hu
  obtain ⟨d₁, o₁, h₁, rfl⟩ := commitStep_cases ht
  obtain ⟨d₂, o₂, h₂, rfl⟩ := commitStep_cases hu
  exact decStep_framing hst h₁ h₂

/-- Settles O37: both machines answer as the decoder after power-up does. -/
theorem staleStateIsUnobservable : Obligations.StaleStateIsUnobservable := by
  intro s₁ s₂ bytes h₁ h₂
  obtain ⟨d, outs, hfeed, -⟩ := decFeed_inv (d := DecState.reset) bytes rfl
  obtain ⟨t₁, hexec₁, hout₁, hst₁⟩ := exec_decFeed_from_idle h₁ hfeed
  obtain ⟨t₂, hexec₂, hout₂, hst₂⟩ := exec_decFeed_from_idle h₂ hfeed
  exact ⟨t₁, t₂, outs, hexec₁, hexec₂, hout₁, hout₂, hst₁.trans hst₂.symm⟩

/-- Settles O25: clause by clause the write column of the clause's rows. -/
theorem rowsWriteOnlyTheirRegisters : Obligations.RowsWriteOnlyTheirRegisters := by
  intro i s t h
  have hwrites : ∀ r, i.row? = some r → WritesOnly r s.dec t.dec := by
    intro r hr
    obtain ⟨b, o, heff⟩ := exec_row_effect hr h
    exact rowEffect_writesOnly heff
  refine ⟨hwrites _, ?_, ?_, hwrites _, ?_, hwrites _, hwrites _, ?_, hwrites _, ?_⟩
  · rintro (hr | hr | hr | hr | hr | hr | hr | hr | hr) <;> exact hwrites _ hr
  · rintro (hr | hr | hr | hr) <;> exact hwrites _ hr
  · rintro (hr | hr) <;> exact hwrites _ hr
  · rintro (hr | hr) <;> exact hwrites _ hr
  · rintro (hr | hr) <;> exact hwrites _ hr

end Sys2Proof.Machine
end

section
/-! The laws of the two checksum functions (40_checksum_engines.md R67, R71) and the other forms of the CRC: polynomial
remainder (R70), parallel (R72), table (R73). -/

namespace Sys2Proof.Machine

/-! ### Exclusive-or -/

/-- A list checksum from seed 0 is the exclusive-or of all bytes, taken from the other end too. -/
theorem xor8List_zero_eq_foldr (m : List Byte) : xor8List 0x00#8 m = m.foldr (fun x a => x ^^^ a) 0x00#8 := by
  induction m with
  | nil => rfl
  | cons x m ih => rw [xor8List, xor8List_seed, ih]; simp [xor8]

/-- R67 (b): the order of the bytes does not matter. -/
theorem xor8List_perm {m m' : List Byte} (h : m.Perm m') (seed : Byte) : xor8List seed m = xor8List seed m' := by
  induction h generalizing seed with
  | nil => rfl
  | cons x _ ih => exact ih _
  | swap x y m => simp only [xor8List, xor8, BitVec.xor_assoc, BitVec.xor_comm x y]
  | trans _ _ ih₁ ih₂ => exact (ih₁ seed).trans (ih₂ seed)

/-- R67 (d): a difference in one byte is the difference of the checksums. -/
theorem xor8List_change (seed x δ : Byte) (u v : List Byte) :
    xor8List seed (u ++ (x ^^^ δ) :: v) = xor8List seed (u ++ x :: v) ^^^ δ := by
  simp only [xor8List_append, xor8List]
  rw [xor8List_seed, xor8List_seed (xor8 _ x)]
  simp only [xor8]
  ac_rfl

/-! ### The bit step of the CRC is linear and loses nothing -/

/-- The bit step without its case split: the shifted byte, and the polynomial if the top bit was set. -/
theorem getLsbD_crc8Bit (c : Byte) (i : Nat) :
    (crc8Bit c).getLsbD i = ((c <<< 1).getLsbD i ^^ (c.getLsbD 7 && crcPoly.getLsbD i)) := by
  unfold crc8Bit
  split <;> simp_all

/-- The bit step as a shift register: bit 7 is fed back into bits 0, 2, 4, 6 and 7. -/
theorem crc8Bit_bits (c : Byte) :
    (crc8Bit c).getLsbD 0 = c.getLsbD 7 ∧ (crc8Bit c).getLsbD 1 = c.getLsbD 0 ∧
    (crc8Bit c).getLsbD 2 = (c.getLsbD 1 ^^ c.getLsbD 7) ∧ (crc8Bit c).getLsbD 3 = c.getLsbD 2 ∧
    (crc8Bit c).getLsbD 4 = (c.getLsbD 3 ^^ c.getLsbD 7) ∧ (crc8Bit c).getLsbD 5 = c.getLsbD 4 ∧
    (crc8Bit c).getLsbD 6 = (c.getLsbD 5 ^^ c.getLsbD 7) ∧ (crc8Bit c).getLsbD 7 = (c.getLsbD 6 ^^ c.getLsbD 7) := by
  simp only [getLsbD_crc8Bit, crcPoly]
  simp

theorem crc8Bit_xor (a b : Byte) : crc8Bit (a ^^^ b) = crc8Bit a ^^^ crc8Bit b := by
  apply BitVec.eq_of_getLsbD_eq
  intro i _
  simp only [BitVec.getLsbD_xor, getLsbD_crc8Bit, BitVec.shiftLeft_xor_distrib, Bool.and_xor_distrib_right,
    Bool.xor_assoc, Bool.xor_left_comm]

theorem crc8Bits_xor (n : Nat) (a b : Byte) : crc8Bits n (a ^^^ b) = crc8Bits n a ^^^ crc8Bits n b := by
  induction n generalizing a b with
  | zero => rfl
  | succ n ih => rw [crc8Bits, crc8Bit_xor, ih]; rfl

/-- The bits of the answer determine the bits of the argument, so only 0 answers 0. -/
theorem eq_zero_of_crc8Bit {c : Byte} (h : crc8Bit c = 0#8) : c = 0#8 := by
  have hbits := crc8Bit_bits c
  rw [h] at hbits
  apply BitVec.eq_of_getLsbD_eq
  intro i hi
  interval_cases i <;> simp_all

theorem crc8Bits_injective (n : Nat) : Function.Injective (crc8Bits n) := by
  have hker : ∀ n c, crc8Bits n c = 0#8 → c = 0#8 := by
    intro n
    induction n with
    | zero => exact fun _ h => h
    | succ n ih => exact fun c h => eq_zero_of_crc8Bit (ih _ h)
  intro x y h
  exact BitVec.xor_eq_zero_iff.mp (hker n _ (by rw [crc8Bits_xor, h, BitVec.xor_self]))

theorem crc8_injective_right (c : Byte) : Function.Injective (fun b => crc8 c b) := fun _ _ h =>
  (BitVec.xor_right_inj c).mp (crc8Bits_injective 8 h)

theorem crc8_injective_left (b : Byte) : Function.Injective (fun c => crc8 c b) := fun _ _ h =>
  (BitVec.xor_left_inj b).mp (crc8Bits_injective 8 h)

theorem crc8_self (c : Byte) : crc8 c c = 0x00#8 := by rw [crc8, BitVec.xor_self]; rfl

/-- R71 (d): comparing the checksum byte is testing the next checksum for 0. -/
theorem eq_iff_crc8_eq_zero (c b : Byte) : b = c ↔ crc8 c b = 0x00#8 := by
  rw [← crc8_self c]
  exact (crc8_injective_right c).eq_iff.symm

theorem crc8List_injective_seed (m : List Byte) : Function.Injective (fun seed => crc8List seed m) := by
  induction m with
  | nil => exact fun _ _ h => h
  | cons x m ih => exact fun _ _ h => crc8_injective_left x (ih h)

/-! ### The remainder of the division by `G` -/

/-- The multiple of `G` that `n` bit steps take out of a byte shifted up by `n`. -/
def crcMultiple : Nat → Byte → Half
  | 0, _ => 0#16
  | n + 1, t => (if t.getLsbD 7 then 0x1D5#16 <<< n else 0#16) ^^^ crcMultiple n (crc8Bit t)

/-- The quotient of the eight steps of `crc8`: each step's top bit, the first step's highest. -/
def crcQuotient (t : Byte) : Byte := BitVec.ofFnLE fun i : Fin 8 => (crc8Bits (7 - i) t).getLsbD 7

/-- One step takes out `G` when the top bit is set. -/
theorem shift_eq_crc8Bit (t : Byte) :
    t.setWidth 16 <<< 1 = (if t.getLsbD 7 then 0x1D5#16 else 0#16) ^^^ (crc8Bit t).setWidth 16 := by
  apply BitVec.eq_of_getLsbD_eq
  intro i hi
  have hpoly : (if t.getLsbD 7 then 0x1D5#16 else 0#16).getLsbD i = (t.getLsbD 7 && (0x1D5#16).getLsbD i) := by
    split <;> simp_all
  simp only [BitVec.getLsbD_xor, hpoly, BitVec.getLsbD_setWidth, getLsbD_crc8Bit, BitVec.getLsbD_shiftLeft, crcPoly]
  interval_cases i <;> simp [Bool.xor_left_comm]

theorem shift_eq_crc8Bits (n : Nat) (t : Byte) :
    t.setWidth 16 <<< n = crcMultiple n t ^^^ (crc8Bits n t).setWidth 16 := by
  induction n generalizing t with
  | zero => simp [crcMultiple, crc8Bits]
  | succ n ih =>
    rw [Nat.add_comm n 1, BitVec.shiftLeft_add, shift_eq_crc8Bit, BitVec.shiftLeft_xor_distrib, ih, Nat.add_comm 1 n,
      crcMultiple, crc8Bits, BitVec.xor_assoc]
    congr 1
    split <;> simp

theorem getLsbD_crcQuotient (t : Byte) {i : Nat} (hi : i < 8) :
    (crcQuotient t).getLsbD i = (crc8Bits (7 - i) t).getLsbD 7 := by
  simp [crcQuotient, hi]

/-- The quotient's bits select the multiples of `G` that the eight steps take out. -/
theorem foldl_crcQuotient (t : Byte) :
    (List.range 8).foldl (fun (acc : Half) i => if (crcQuotient t).getLsbD i then acc ^^^ (0x1D5#16 <<< i) else acc) 0#16 =
      crcMultiple 8 t := by
  have hadd : ∀ (q : Bool) (acc x : Half), (if q then acc ^^^ x else acc) = (if q then x else 0#16) ^^^ acc := by
    intro q acc x
    cases q <;> simp [BitVec.xor_comm]
  have hrange : List.range 8 = [0, 1, 2, 3, 4, 5, 6, 7] := rfl
  simp (disch := decide) only [hrange, List.foldl_cons, List.foldl_nil, hadd, getLsbD_crcQuotient, crcMultiple, crc8Bits,
    BitVec.xor_zero, Nat.sub_self]

theorem append_zero_eq_shift (t : Byte) : (t ++ 0x00#8 : Half) = t.setWidth 16 <<< 8 := by
  apply BitVec.eq_of_getLsbD_eq
  intro i hi
  rw [BitVec.getLsbD_append]
  interval_cases i <;> simp

/-! ### The parallel form -/

/-- R72: each result bit after eight steps of the shift register. -/
theorem crc8Bits_eight_bits (t : Byte) :
    (crc8Bits 8 t).getLsbD 7 = (t.getLsbD 7 ^^ t.getLsbD 6 ^^ t.getLsbD 5 ^^ t.getLsbD 2 ^^ t.getLsbD 0) ∧
    (crc8Bits 8 t).getLsbD 6 = (t.getLsbD 7 ^^ t.getLsbD 4 ^^ t.getLsbD 2 ^^ t.getLsbD 1 ^^ t.getLsbD 0) ∧
    (crc8Bits 8 t).getLsbD 5 = (t.getLsbD 7 ^^ t.getLsbD 5 ^^ t.getLsbD 3 ^^ t.getLsbD 2 ^^ t.getLsbD 1) ∧
    (crc8Bits 8 t).getLsbD 4 = (t.getLsbD 6 ^^ t.getLsbD 4 ^^ t.getLsbD 2 ^^ t.getLsbD 1 ^^ t.getLsbD 0) ∧
    (crc8Bits 8 t).getLsbD 3 = (t.getLsbD 7 ^^ t.getLsbD 6 ^^ t.getLsbD 3 ^^ t.getLsbD 2 ^^ t.getLsbD 1) ∧
    (crc8Bits 8 t).getLsbD 2 =
      (t.getLsbD 7 ^^ t.getLsbD 6 ^^ t.getLsbD 5 ^^ t.getLsbD 2 ^^ t.getLsbD 1 ^^ t.getLsbD 0) ∧
    (crc8Bits 8 t).getLsbD 1 = (t.getLsbD 7 ^^ t.getLsbD 4 ^^ t.getLsbD 2 ^^ t.getLsbD 1) ∧
    (crc8Bits 8 t).getLsbD 0 = (t.getLsbD 7 ^^ t.getLsbD 6 ^^ t.getLsbD 3 ^^ t.getLsbD 1 ^^ t.getLsbD 0) := by
  have hcancel : ∀ x y : Bool, (x ^^ (x ^^ y)) = y := by decide
  simp only [crc8Bits, crc8Bit_bits, Bool.xor_assoc, Bool.xor_left_comm, Bool.xor_comm, hcancel, Bool.xor_self,
    Bool.false_xor, and_self]

/-- R72: the eight equations together are `crc8`. -/
theorem crc8Parallel_eq (crc b : Byte) : crc8Parallel crc b = crc8 crc b := by
  apply BitVec.eq_of_getLsbD_eq
  intro i hi
  rw [crc8Parallel, BitVec.getLsbD_ofBoolListBE, crc8]
  generalize crc ^^^ b = t
  obtain ⟨h7, h6, h5, h4, h3, h2, h1, h0⟩ := crc8Bits_eight_bits t
  interval_cases i <;> [rw [h0]; rw [h1]; rw [h2]; rw [h3]; rw [h4]; rw [h5]; rw [h6]; rw [h7]] <;> simp [xorBits]

/-! ### The table form -/

/-- R73: the printed table, computed by the parallel form, which the kernel evaluates at once where the bit steps would
evaluate each step's argument again. -/
theorem crcTable_eq_map : crcTable = (List.range 256).map fun i => crc8Parallel 0x00#8 (BitVec.ofNat 8 i) := by
  decide +kernel

theorem crcTable_getElem? (i : Byte) : crcTable[i.toNat]? = some (crc8 0x00#8 i) := by
  simp [crcTable_eq_map, crc8Parallel_eq, i.isLt]

/-! ### The obligations -/

/-- Settles O40: the group laws of exclusive-or, and what they say of lists. -/
theorem xorLaws : Obligations.XorLaws := by
  refine ⟨fun a b c => ⟨BitVec.xor_assoc a b c, BitVec.xor_comm a b, ?_⟩, fun seed m m' h => xor8List_perm h seed,
    fun m => ?_, fun b csum => ?_, xor8List_change, fun _ _ _ => ⟨rfl, rfl⟩⟩
  · rw [xor8, xor8, BitVec.xor_assoc, BitVec.xor_self, BitVec.xor_zero]
  · rw [xor8List_zero_eq_foldr]
  · rw [xor8, BitVec.xor_eq_zero_iff, eq_comm]

/-- Settles O41: `crc8` is a linear map without kernel, applied to the exclusive-or of its arguments. -/
theorem crcLaws : Obligations.CrcLaws := by
  refine ⟨crc8_eq_seed, fun a b => ?_, fun c => Finite.injective_iff_bijective.mp (crc8_injective_right c),
    fun b => Finite.injective_iff_bijective.mp (crc8_injective_left b), fun c b => ⟨crc8_self c, eq_iff_crc8_eq_zero c b⟩,
    fun seed x y u v hne h => ?_, fun _ _ _ => ⟨rfl, rfl⟩⟩
  · simp only [crc8, BitVec.zero_xor, crc8Bits_xor]
  · simp only [crc8List_append, crc8List] at h
    exact hne (crc8_injective_right _ (crc8List_injective_seed v h))

/-- Settles O42: the quotient's multiple of `G` is what the eight steps take out. -/
theorem crcIsPolynomialRemainder : Obligations.CrcIsPolynomialRemainder := fun c b =>
  ⟨crcQuotient (c ^^^ b), by rw [foldl_crcQuotient, append_zero_eq_shift, shift_eq_crc8Bits, crc8]⟩

/-- Settles O43: the eight equations, and that the parallel form is made of them. -/
theorem crcParallelForm : Obligations.CrcParallelForm := by
  intro crc b t n
  obtain ⟨h7, h6, h5, h4, h3, h2, h1, h0⟩ := crc8Bits_eight_bits t
  exact ⟨h7, h6, h5, h4, h3, h2, h1, h0, crc8Parallel_eq crc b⟩

/-- Settles O44: the table's entries, and R71 (a). -/
theorem crcTableForm : Obligations.CrcTableForm := by
  refine ⟨by simp [crcTable_eq_map], crcTable_getElem?, fun crc b => ?_⟩
  rw [crc8Table, List.getD_eq_getElem?_getD, crcTable_getElem?, crc8_eq_seed, Option.getD_some]

end Sys2Proof.Machine
end

section
/-! The serialiser position by position, and what becomes of a request to the encoder: taken, left waiting while the frame in
progress comes out, or refused (43_encoder_legacy.md R121 to R126, R129). -/

namespace Sys2Proof.Machine

/-! ### One serialiser step, one equation per position -/

section positions
variable {e : EncState}

theorem encTick_encIdle (h : e.st = .encIdle) : encTick e = .ok (e, none) := by simp only [encTick, h]

theorem encTick_encSync (h : e.st = .encSync) : encTick e = .ok ({ e with st := .encFmt }, some markSync) := by
  simp only [encTick, h]

theorem encTick_encFmt (h : e.st = .encFmt) : encTick e = .ok ({ e with st := .encDir }, some markLegacy) := by
  simp only [encTick, h]

theorem encTick_encDir (h : e.st = .encDir) : encTick e = .ok ({ e with st := .encLen }, some markEnc) := by
  simp only [encTick, h]

theorem encTick_encLen (h : e.st = .encLen) :
    encTick e = .ok ({ e with csum := xor8 e.csum e.len, st := .encCmd }, some e.len) := by
  simp only [encTick, h]

theorem encTick_encCmd (h : e.st = .encCmd) :
    encTick e = .ok ({ e with csum := xor8 e.csum e.cmd, st := if e.len = 0#8 then .encCsum else .encData },
      some e.cmd) := by
  simp only [encTick, h]

theorem encTick_encData {v : Byte} (h : e.st = .encData) (hv : e.payload[e.idx.toNat]? = some v) :
    encTick e = .ok ({ e with csum := xor8 e.csum v, idx := e.idx + 1#8,
                              st := if e.idx + 1#8 = e.len then .encCsum else .encData }, some v) := by
  simp [encTick, h, hv, encComplete]

theorem encTick_encCsum (h : e.st = .encCsum) : encTick e = .ok ({ e with st := .encIdle }, some e.csum) := by
  simp only [encTick, h]

end positions

theorem stepSerialiser_ok {s : State} {e : EncState} {o : Option Byte} (h : encTick s.enc = .ok (e, o)) :
    stepSerialiser s = .next { s with enc := e, encOut := s.encOut ++ o.toList } := by
  simp only [stepSerialiser, h]

theorem stepSerialiser_idle {s : State} (h : s.enc.st = .encIdle) : stepSerialiser s = .next s := by
  simp [stepSerialiser_ok (encTick_encIdle h)]

/-! ### The bytes still to come -/

section remaining
variable {e : EncState}

/-- In the middle of a frame the length byte is the payload's length. -/
theorem EncState.inv_length (h : e.inv = true) (hne : e.st ≠ .encIdle) : e.payload.length = e.len.toNat := by
  cases hst : e.st <;> simp_all [EncState.inv]

theorem EncState.inv_lengthByte (h : e.inv = true) (hne : e.st ≠ .encIdle) : lengthByte e.payload = e.len := by
  rw [lengthByte, e.inv_length h hne, BitVec.ofNat_toNat, BitVec.setWidth_eq]

theorem legacyTxBytes_drop (c : Byte) (p : List Byte) (n : Nat) :
    (legacyTxBytes c p).drop (5 + n) = (p ++ [legacyChecksum (lengthByte p) c p]).drop n := by
  rw [← List.drop_drop]; rfl

theorem encRemaining_encIdle (h : e.st = .encIdle) : encRemaining e = [] := by simp only [encRemaining, h]

/-- R126: a step in the middle of a frame emits the first of the bytes still to come and leaves the others. -/
theorem encTick_emits (hinv : e.inv = true) (hne : e.st ≠ .encIdle) :
    ∃ e' b, encTick e = .ok (e', some b) ∧ e'.inv = true ∧ encRemaining e = b :: encRemaining e' := by
  have hlen := e.inv_length hinv hne
  have hbyte := e.inv_lengthByte hinv hne
  have emits : ∀ e' b, encTick e = .ok (e', some b) → encRemaining e = b :: encRemaining e' →
      ∃ e' b, encTick e = .ok (e', some b) ∧ e'.inv = true ∧ encRemaining e = b :: encRemaining e' := by
    intro e' b htick hrest
    obtain ⟨e'', o, htick', hinv'⟩ := encTick_inv hinv
    rw [htick] at htick'
    cases htick'
    exact ⟨e', b, htick, hinv', hrest⟩
  cases hst : e.st <;> simp only [EncState.inv, hst, Bool.and_eq_true, decide_eq_true_eq, beq_iff_eq] at hinv
  case encIdle => exact absurd hst hne
  case encSync => exact emits _ _ (encTick_encSync hst) (by simp only [encRemaining, hst]; rfl)
  case encFmt => exact emits _ _ (encTick_encFmt hst) (by simp only [encRemaining, hst]; rfl)
  case encDir => exact emits _ _ (encTick_encDir hst) (by simp only [encRemaining, hst]; rfl)
  case encLen => exact emits _ _ (encTick_encLen hst) (by simp only [encRemaining, hst]; rw [← hbyte]; rfl)
  case encCmd =>
    obtain ⟨⟨-, hidx⟩, -⟩ := hinv
    refine emits _ _ (encTick_encCmd hst) ?_
    by_cases hz : e.len = 0#8
    · have hnil : e.payload.length = 0 := by rw [hlen, hz]; rfl
      simp only [encRemaining, hst, hz, if_true, hnil]; rfl
    · simp only [encRemaining, hst, hz, if_false, hidx]; rfl
  case encData =>
    obtain ⟨⟨-, hidx⟩, -⟩ := hinv
    have hlt : e.idx.toNat < e.payload.length := by omega
    have hnext : (e.idx + 1#8).toNat = e.idx.toNat + 1 := by
      have := e.len.isLt
      rw [BitVec.toNat_add]; simp; omega
    have hrest : (legacyTxBytes e.cmd e.payload).drop (5 + e.idx.toNat) =
        e.payload[e.idx.toNat] :: (legacyTxBytes e.cmd e.payload).drop (5 + (e.idx.toNat + 1)) := by
      rw [legacyTxBytes_drop, legacyTxBytes_drop, List.drop_eq_getElem_cons (by simp; omega),
        List.getElem_append_left hlt]
    refine emits _ _ (encTick_encData hst (List.getElem?_eq_getElem hlt)) ?_
    by_cases hlast : e.idx + 1#8 = e.len
    · have hfull : e.payload.length = e.idx.toNat + 1 := by rw [hlen, ← hlast, hnext]
      simp only [encRemaining, hst, hlast, if_true, hrest, hfull]
    · simp only [encRemaining, hst, hlast, if_false, hrest, hnext]
  case encCsum =>
    obtain ⟨-, hsum⟩ := hinv
    refine emits _ _ (encTick_encCsum hst) ?_
    simp [encRemaining, hst, legacyTxBytes_drop, hsum, hbyte]

/-- At most a frame of 255 payload bytes is still to come. -/
theorem encRemaining_length_le (hinv : e.inv = true) : (encRemaining e).length ≤ 261 := by
  by_cases hidle : e.st = .encIdle
  · simp [encRemaining_encIdle hidle]
  · have hlen := e.inv_length hinv hidle
    have hbound := e.len.isLt
    have hframe := legacyTxBytes_length e.cmd e.payload
    cases hst : e.st <;> simp only [encRemaining, hst, List.length_drop, List.length_nil] <;> omega

end remaining

/-! ### Runs of the serialiser -/

/-- A run of `n` steps followed by a run of `m`. -/
theorem run_add {n : Nat} {s t : State} (m : Nat) (h : Host.Core.run Sys2Proof.core n s = .next t) :
    Host.Core.run Sys2Proof.core (n + m) s = Host.Core.run Sys2Proof.core m t := by
  induction n generalizing s with
  | zero => cases h; rw [Nat.zero_add]
  | succ n ih =>
    cases hstep : step s with
    | next u =>
      rw [run_next n hstep] at h
      rw [Nat.succ_add, run_next (n + m) hstep, ih h]
    | fault f =>
      have hc : Sys2Proof.core.step s = .fault f := hstep
      simp [Host.Core.run, hc] at h
    | refused r =>
      have hc : Sys2Proof.core.step s = .refused r := hstep
      simp [Host.Core.run, hc] at h

theorem run_one {s t : State} (h : step s = .next t) : Host.Core.run Sys2Proof.core 1 s = .next t := run_next 0 h

/-- While what is first in line makes a busy serialiser step, the frame in progress comes out to its end, and nothing else
changes. -/
theorem run_drains {s : State} (hinv : s.enc.inv = true)
    (hstep : ∀ u : State, u.pending = s.pending → u.enc.st ≠ .encIdle → step u = stepSerialiser u) :
    ∃ e, e.st = .encIdle ∧ Host.Core.run Sys2Proof.core (encRemaining s.enc).length s =
      .next { s with enc := e, encOut := s.encOut ++ encRemaining s.enc } := by
  generalize hn : (encRemaining s.enc).length = n
  induction n generalizing s with
  | zero =>
    have hnil := List.length_eq_zero_iff.mp hn
    refine ⟨s.enc, ?_, by rw [hnil, List.append_nil]; rfl⟩
    by_contra hbusy
    obtain ⟨e', b, -, -, hrest⟩ := encTick_emits hinv hbusy
    rw [hnil] at hrest
    cases hrest
  | succ n ih =>
    have hbusy : s.enc.st ≠ .encIdle := fun hidle => by simp [encRemaining_encIdle hidle] at hn
    obtain ⟨e', b, htick, hinv', hrest⟩ := encTick_emits hinv hbusy
    have hfirst := (hstep s rfl hbusy).trans (stepSerialiser_ok htick)
    rw [hrest, List.length_cons, Nat.succ_inj] at hn
    obtain ⟨e, hidle, hrun⟩ := ih (s := { s with enc := e', encOut := s.encOut ++ (some b).toList }) hinv' hstep hn
    refine ⟨e, hidle, ?_⟩
    rw [run_next n hfirst, hrun, hrest]
    simp

/-- A waiting request is served by the step after the frame in progress has come out. -/
theorem run_request {again : Stimulus} {p : List Byte} {accept : State → State} {s : State} {rest : List Stimulus}
    (hp : p.length ≤ Config.encPayloadMax) (hinv : s.enc.inv = true) (hpend : s.pending = again :: rest)
    (hstep : ∀ u : State, u.pending = again :: rest → step u = encRequest again p accept { u with pending := rest }) :
    ∃ n e, n ≤ 262 ∧ e.st = .encIdle ∧ Host.Core.run Sys2Proof.core n s =
      .next (accept { s with enc := e, encOut := s.encOut ++ encRemaining s.enc, pending := rest }) := by
  have hwaits : ∀ u : State, u.pending = s.pending → u.enc.st ≠ .encIdle → step u = stepSerialiser u := by
    intro u hu hbusy
    rw [hpend] at hu
    have hsame : { u with pending := again :: rest } = u := by rw [← hu]
    rw [hstep u hu, encRequest_busy (s := { u with pending := rest }) hp hbusy]
    exact congrArg stepSerialiser hsame
  obtain ⟨e, hidle, hdrain⟩ := run_drains hinv hwaits
  refine ⟨_, e, Nat.succ_le_succ (encRemaining_length_le hinv), hidle, (run_add 1 hdrain).trans (run_one ?_)⟩
  refine (hstep _ ?_).trans (encRequest_idle hp ?_)
  · exact hpend
  · exact hidle

/-! ### The steps that serve a request -/

section requests
variable {s : State} {rest : List Stimulus} {c : Byte} {p : List Byte}

theorem step_encStart_eq (h : s.pending = .encStart c p :: rest) :
    step s = encRequest (.encStart c p) p (fun u => { u with enc := encLoad c p u.enc }) { s with pending := rest } :=
  step_encStart h

/-- A presented ENC.LEGACY, or transmit word of a command and at most 255 payload bytes, is a request for its frame. -/
theorem step_encLegacy (h : s.pending = .op (.encLegacy c p) :: rest) :
    step s = encRequest (.op (.encLegacy c p)) p (emitFrame c p) { s with pending := rest } :=
  step_op h rfl

theorem step_frameTx (hp : p.length ≤ Config.encPayloadMax) (h : s.pending = .op (.frameTx (legacyTxBytes c p)) :: rest) :
    step s = encRequest (.op (.frameTx (legacyTxBytes c p))) p (emitFrame c p) { s with pending := rest } := by
  rw [step_op h (decodeFrameTx_bytes c hp), exec_frameTxRow]

end requests

/-! ### The obligations -/

/-- Settles O46: each of the three is an encode request. -/
theorem oversizePayloadRefused : Obligations.OversizePayloadRefused := fun _ _ _ hp =>
  ⟨encRequest_oversize hp, encRequest_oversize hp, fun _ h => (step_encStart_eq h).trans (encRequest_oversize hp)⟩

/-- Settles O47: the idle serialiser takes each request, and the three fixed frames by evaluation. -/
theorem transmitRowsOutputs : Obligations.TransmitRowsOutputs := by
  intro s hs
  refine ⟨fun c p hp => ?_, encRequest_idle (p := []) (Nat.zero_le _) hs, encRequest_idle (p := []) (Nat.zero_le _) hs,
    encRequest_idle (p := []) (Nat.zero_le _) hs⟩
  have htx : exec (.frameLegacyTx c p) s = .next (emitFrame c p s) := encRequest_idle hp hs
  exact ⟨htx.trans (exec_encLegacy_idle c hp hs).symm, _, htx⟩

/-- Settles O48: the request is loaded, and at each position the step is the position's equation. -/
theorem serialiserRows : Obligations.SerialiserRows := by
  refine ⟨fun s c p rest hpend hs hp => (step_encStart_eq hpend).trans (encRequest_idle hp hs), fun s u hu => ?_⟩
  have hstep : step s = stepSerialiser u := by
    rcases hu with ⟨hnone, rfl⟩ | ⟨rest, htick, rfl⟩
    · exact step_waiting hnone
    · exact step_encTick htick
  rw [hstep]
  exact ⟨stepSerialiser_idle, fun h => stepSerialiser_ok (encTick_encSync h), fun h => stepSerialiser_ok (encTick_encFmt h),
    fun h => stepSerialiser_ok (encTick_encDir h), fun h => stepSerialiser_ok (encTick_encLen h),
    fun h => stepSerialiser_ok (encTick_encCmd h), fun v h hv => stepSerialiser_ok (encTick_encData h hv),
    fun h => stepSerialiser_ok (encTick_encCsum h)⟩

/-- Settles O49: one step loads the request, and with nothing presented the whole frame is still to come. -/
theorem serialiserEmitsTheFrame : Obligations.SerialiserEmitsTheFrame := by
  intro s c p hp hs hpend
  have hload := (step_encStart_eq hpend).trans (encRequest_idle hp hs)
  obtain ⟨e, hidle, hrun⟩ := run_drains (s := { s with enc := encLoad c p s.enc, pending := [] }) (encLoad_inv c s.enc hp)
    fun u hu _ => step_waiting hu
  have hframe : encRemaining (encLoad c p s.enc) = legacyTxBytes c p := rfl
  rw [hframe, legacyTxBytes_length] at hrun
  rw [← run_next _ hload, show 6 + p.length + 1 = 7 + p.length by omega] at hrun
  exact ⟨_, hrun, rfl, hidle, rfl, rfl, rfl⟩

/-- Settles O50: a request of either kind is served once the frame in progress has come out. -/
theorem busyEncoderFinishesFirst : Obligations.BusyEncoderFinishesFirst := by
  intro s c p rest hp hinv
  refine ⟨fun i hi hpend => ?_, fun hpend => ?_⟩
  · have hstep : ∀ u : State, u.pending = .op (encode i) :: rest →
        step u = encRequest (.op (encode i)) p (emitFrame c p) { u with pending := rest } := by
      rcases hi with rfl | rfl | ⟨rfl, rfl, rfl⟩ | ⟨rfl, rfl, rfl⟩ | ⟨rfl, rfl, rfl⟩
      · exact fun u hu => step_encLegacy hu
      all_goals exact fun u hu => step_frameTx hp hu
    obtain ⟨n, e, hn, hidle, hrun⟩ := run_request hp hinv hpend hstep
    exact ⟨n, _, hn, hrun, rfl, rfl, hidle, rfl, rfl⟩
  · obtain ⟨n, e, hn, -, hrun⟩ := run_request hp hinv hpend fun u hu => step_encStart_eq hu
    exact ⟨n, _, hn, hrun, rfl, rfl, rfl, rfl, rfl⟩

end Sys2Proof.Machine
end

section
/-! The two agents and the whole machine: what an operation of each agent touches (00_scope.md R6, 20_memory.md R40), what a
step can do, and what every step keeps (R154). -/

namespace Sys2Proof.Machine

/-! ### An operation of DEC: a chunk or a reset, which looks at the Decoder State alone -/

/-- From every state with the Decoder State `d₀` the instruction answers `d` and the outputs `outs`, and nothing else. -/
def AnswersFrom (i : Instr) (d₀ d : DecState) (outs : List DecOutput) : Prop :=
  ∀ u : State, u.dec = d₀ → exec i u = .next { u with dec := d, decOut := u.decOut ++ outs }

/-- A reset makes `d` of `d₀`, or some chunk does. -/
def ResetOrChunk (d₀ d : DecState) : Prop := d = decClear d₀ ∨ ∃ bytes outs, decFeed bytes d₀ = .ok (d, outs)

theorem ResetOrChunk.refl (d : DecState) : ResetOrChunk d d := .inr ⟨[], [], decFeed_nil d⟩

section decOp
variable {i : Instr} {s t : State}

theorem exec_chunk_cases {bytes : List Byte} (hexec : ∀ u, exec i u = commitDec u (decFeed bytes u.dec))
    (h : exec i s = .next t) : ∃ d outs, AnswersFrom i s.dec d outs ∧ ResetOrChunk s.dec d := by
  rw [hexec] at h
  obtain ⟨d, outs, hfeed, -⟩ := commitDec_cases h
  exact ⟨d, outs, fun u hu => by rw [hexec, hu, hfeed]; rfl, .inr ⟨bytes, outs, hfeed⟩⟩

theorem exec_row_cases {r : DecRow} (hr : i.row? = some r) (h : exec i s = .next t) :
    ∃ d outs, AnswersFrom i s.dec d outs ∧ ResetOrChunk s.dec d := by
  obtain ⟨b, he, rfl⟩ := instr_of_row hr
  rw [exec_eq_runRow hr he] at h
  obtain ⟨hsel, d, o, heff, -⟩ := runRow_cases h
  have hstep : decStep b s.dec = .ok (d, o) := by rw [decStep, hsel, heff]
  refine ⟨d, o.toList, fun u hu => ?_, .inr ⟨[b], _, decFeed_singleton hstep⟩⟩
  rw [exec_eq_runRow hr he, runRow_selected (by rw [hu, hsel]), hu, heff]
  rfl

theorem exec_decStep_cases {b : Byte} (h : exec (.decStep b) s = .next t) :
    ∃ d outs, AnswersFrom (.decStep b) s.dec d outs ∧ ResetOrChunk s.dec d := by
  obtain ⟨d, o, hstep, -⟩ := commitStep_cases h
  exact ⟨d, o.toList, fun u hu => by rw [exec_decStep, hu, hstep]; rfl, .inr ⟨[b], _, decFeed_singleton hstep⟩⟩

/-- An operation of DEC that answers looks at the Decoder State alone, and is a reset or a chunk. -/
theorem exec_decOp_cases (hi : decOp i = true) (h : exec i s = .next t) :
    ∃ d outs, AnswersFrom i s.dec d outs ∧ ResetOrChunk s.dec d := by
  cases hr : i.row? with
  | some r => exact exec_row_cases hr h
  | none =>
    cases i <;> cases hr <;> cases hi
    case decStep.refl.refl b => exact exec_decStep_cases h
    case decFeed.refl.refl bytes => exact exec_chunk_cases (exec_decFeed bytes) h
    case frameLegacyRx.refl.refl d n c p k => exact exec_chunk_cases (exec_frameLegacyRx d n c k p) h
    case frameExtRx.refl.refl d f cl ch nl nh p k => exact exec_chunk_cases (exec_frameExtRx d f cl ch nl nh k p) h
    case decReset.refl.refl =>
      exact ⟨decClear s.dec, [], fun u hu => by rw [exec_decReset, hu, List.append_nil], .inl rfl⟩

end decOp

/-! ### An operation of ENC, which looks at the encoder alone -/

/-- Every operation of ENC but its reset is an encode request for one frame. -/
theorem exec_encOp_request {j : Instr} (hj : encOp j = true) (hne : j ≠ .encReset) :
    ∃ again c p, ∀ w, exec j w = encRequest again p (emitFrame c p) w := by
  cases j <;> cases hj
  case encReset.refl => exact absurd rfl hne
  case variant.refl => exact ⟨.op (encode .variant), cmdVariant, [], fun _ => rfl⟩
  case version.refl => exact ⟨.op (encode .version), cmdVersion, [], fun _ => rfl⟩
  case reboot.refl => exact ⟨.op (encode .reboot), cmdReboot, [], fun _ => rfl⟩
  case encLegacy.refl c p => exact ⟨.op (.encLegacy c p), c, p, fun _ => rfl⟩
  case frameLegacyTx.refl c p => exact ⟨.op (encode (.frameLegacyTx c p)), c, p, fun _ => rfl⟩

/-- A request that answers does so from every state with the same encoder registers; while the serialiser is idle it changes
none of them and does not wait. -/
theorem encRequest_local {again : Stimulus} {c : Byte} {p : List Byte} {s t : State}
    (h : encRequest again p (emitFrame c p) s = .next t) :
    ∃ e outs waits, (∀ w : State, w.enc = s.enc → encRequest again p (emitFrame c p) w =
        .next { w with enc := e, encOut := w.encOut ++ outs, pending := waits ++ w.pending }) ∧
      (s.enc.st = .encIdle → waits = [] ∧ e = s.enc) := by
  obtain ⟨hp, ⟨hidle, -⟩ | ⟨hbusy, hstep⟩⟩ := encRequest_cases h
  · refine ⟨s.enc, legacyTxBytes c p, [], fun w hw => ?_, fun _ => ⟨rfl, rfl⟩⟩
    rw [encRequest_idle hp (by rw [hw, hidle]), ← hw]
    rfl
  · obtain ⟨e, o, htick, -⟩ := stepSerialiser_cases hstep
    refine ⟨e, o.toList, [again], fun w hw => ?_, fun hidle => absurd hidle hbusy⟩
    rw [encRequest_busy hp (by rw [hw]; exact hbusy), stepSerialiser_ok (by rw [hw]; exact htick)]
    rfl

theorem exec_encOp_cases {j : Instr} {s t : State} (hj : encOp j = true) (h : exec j s = .next t) :
    ∃ e outs waits, (∀ w : State, w.enc = s.enc → exec j w =
        .next { w with enc := e, encOut := w.encOut ++ outs, pending := waits ++ w.pending }) ∧
      (s.enc.st = .encIdle → waits = [] ∧ (j ≠ .encReset → e = s.enc)) := by
  by_cases hreset : j = .encReset
  · subst hreset
    exact ⟨encClear s.enc, [], [], fun w hw => by rw [exec_encReset, hw, List.append_nil]; rfl,
      fun _ => ⟨rfl, fun hne => absurd rfl hne⟩⟩
  · obtain ⟨again, c, p, hexec⟩ := exec_encOp_request hj hreset
    rw [hexec] at h
    obtain ⟨e, outs, waits, hlocal, hidle⟩ := encRequest_local h
    exact ⟨e, outs, waits, fun w hw => (hexec w).trans (hlocal w hw),
      fun hst => ⟨(hidle hst).1, fun _ => (hidle hst).2⟩⟩

/-! ### The other operations -/

/-- A function call or an engine operation writes results and accumulators. -/
theorem exec_other_cases {i : Instr} {s t : State} (hd : decOp i = false) (he : encOp i = false)
    (h : exec i s = .next t) : ∃ x c outs, t = { s with xorAcc := x, crcAcc := c, results := s.results ++ outs } := by
  cases i <;> cases hd <;> cases he <;> cases h
  case xor8Update.refl.refl.refl | crc8Bit.refl.refl.refl | crc8Update.refl.refl.refl => exact ⟨_, _, _, rfl⟩
  all_goals exact ⟨_, _, [], by rw [List.append_nil]⟩

/-! ### What a step can do -/

/-- The effect of a step on the two agents and the outputs. -/
structure Effect (s t : State) : Prop where
  dec : ResetOrChunk s.dec t.dec
  enc : t.enc = s.enc ∨ t.enc = encClear s.enc ∨ (∃ o, encTick s.enc = .ok (t.enc, o)) ∨
    ∃ c p, p.length ≤ Config.encPayloadMax ∧ t.enc = encLoad c p s.enc
  decOut : ∃ x, t.decOut = s.decOut ++ x
  encOut : ∃ y, t.encOut = s.encOut ++ y
  results : ∃ z, t.results = s.results ++ z

section effect
variable {s t : State}

theorem grows_by_nothing {α : Type} (outs : List α) : ∃ x, outs = outs ++ x := ⟨[], (List.append_nil outs).symm⟩

theorem stepSerialiser_effect (h : stepSerialiser s = .next t) : Effect s t := by
  obtain ⟨e, o, htick, rfl⟩ := stepSerialiser_cases h
  exact ⟨ResetOrChunk.refl _, .inr (.inr (.inl ⟨o, htick⟩)), grows_by_nothing _, ⟨_, rfl⟩, grows_by_nothing _⟩

theorem encRequest_effect {again : Stimulus} {p : List Byte} {accept : State → State}
    (haccept : p.length ≤ Config.encPayloadMax → Effect s (accept s)) (h : encRequest again p accept s = .next t) :
    Effect s t := by
  obtain ⟨hp, ⟨-, rfl⟩ | ⟨-, hstep⟩⟩ := encRequest_cases h
  · exact haccept hp
  · obtain ⟨hdec, henc, hdout, heout, hres⟩ := stepSerialiser_effect hstep
    exact ⟨hdec, henc, hdout, heout, hres⟩

theorem emitFrame_effect (c : Byte) (p : List Byte) (s : State) : Effect s (emitFrame c p s) :=
  ⟨ResetOrChunk.refl _, .inl rfl, grows_by_nothing _, ⟨_, rfl⟩, grows_by_nothing _⟩

theorem encLoad_effect {p : List Byte} (c : Byte) (s : State) (hp : p.length ≤ Config.encPayloadMax) :
    Effect s { s with enc := encLoad c p s.enc } :=
  ⟨ResetOrChunk.refl _, .inr (.inr (.inr ⟨c, p, hp, rfl⟩)), grows_by_nothing _, grows_by_nothing _, grows_by_nothing _⟩

theorem exec_effect {i : Instr} (h : exec i s = .next t) : Effect s t := by
  cases hd : decOp i with
  | true =>
    obtain ⟨d, outs, hlocal, hdec⟩ := exec_decOp_cases hd h
    rw [hlocal s rfl] at h
    cases h
    exact ⟨hdec, .inl rfl, ⟨_, rfl⟩, grows_by_nothing _,
      grows_by_nothing _⟩
  | false =>
    cases he : encOp i with
    | true =>
      by_cases hreset : i = .encReset
      · subst hreset
        cases h
        exact ⟨ResetOrChunk.refl _, .inr (.inl rfl), grows_by_nothing _, grows_by_nothing _, grows_by_nothing _⟩
      · obtain ⟨again, c, p, hexec⟩ := exec_encOp_request he hreset
        exact encRequest_effect (fun _ => emitFrame_effect c p s) ((hexec s).symm.trans h)
    | false =>
      obtain ⟨x, c, outs, rfl⟩ := exec_other_cases hd he h
      exact ⟨ResetOrChunk.refl _, .inl rfl, grows_by_nothing _, grows_by_nothing _, ⟨_, rfl⟩⟩

/-- Every step, whatever is presented. -/
theorem step_effect (h : step s = .next t) : Effect s t := by
  have served : ∀ rest, Effect { s with pending := rest } t → Effect s t :=
    fun _ ⟨hdec, henc, hdout, heout, hres⟩ => ⟨hdec, henc, hdout, heout, hres⟩
  cases hp : s.pending with
  | nil => exact stepSerialiser_effect ((step_waiting hp).symm.trans h)
  | cons first rest =>
    apply served rest
    cases first with
    | op r =>
      cases hd : decode s.dec.st s.dec.csum r with
      | error e => rw [step_undecodable hp hd] at h; cases h
      | ok i => exact exec_effect ((step_op hp hd).symm.trans h)
    | rst b =>
      rw [step_rst hp] at h
      cases h
      exact ⟨.inl rfl, .inr (.inl rfl), grows_by_nothing _, grows_by_nothing _, grows_by_nothing _⟩
    | encStart c p => exact encRequest_effect (encLoad_effect c _) ((step_encStart_eq hp).symm.trans h)
    | encTick => exact stepSerialiser_effect ((step_encTick hp).symm.trans h)

/-! ### What every step keeps -/

theorem encClear_inv (e : EncState) : (encClear e).inv = true := rfl

theorem Effect.keeps_canonicalBuffer (h : Effect s t) (hwf : s.dec.payload.wf = true) : t.dec.payload.wf = true := by
  rcases h.dec with hclear | ⟨bytes, outs, hfeed⟩
  · rw [hclear, decClear_payload]
    exact hwf
  · exact decFeed_wf hwf hfeed

theorem Effect.keeps_dec_inv (h : Effect s t) (hinv : s.dec.inv = true) : t.dec.inv = true := by
  rcases h.dec with hclear | ⟨bytes, outs, hfeed⟩
  · rw [hclear]
    exact decClear_inv hinv
  · obtain ⟨d, outs', hfeed', hinv'⟩ := decFeed_inv bytes hinv
    rw [hfeed] at hfeed'
    cases hfeed'
    exact hinv'

theorem Effect.keeps_enc_inv (h : Effect s t) (hinv : s.enc.inv = true) : t.enc.inv = true := by
  rcases h.enc with hsame | hclear | ⟨o, htick⟩ | ⟨c, p, hp, hload⟩
  · rw [hsame]
    exact hinv
  · rw [hclear]
    exact encClear_inv _
  · obtain ⟨e, o', htick', hinv'⟩ := encTick_inv hinv
    rw [htick] at htick'
    cases htick'
    exact hinv'
  · rw [hload]
    exact encLoad_inv c _ hp

theorem State.inv_iff (s : State) : s.inv = true ↔ s.dec.inv = true ∧ s.enc.inv = true := Bool.and_eq_true_iff

end effect

/-! ### Every step answers, but for the host's own mistakes -/

section total
variable {s : State}

/-- The host asks for more than 255 payload bytes (R124). -/
def State.asksOversize (s : State) : Prop :=
  ∃ (c : Byte) (p : List Byte) (rest : List Stimulus), 255 < p.length ∧
    (s.pending = .op (.encLegacy c p) :: rest ∨ s.pending = .encStart c p :: rest)

/-- The host presents a whole-frame word without a layout (log entry 15). -/
def State.presentsUndecodable (s : State) (e : DecodeError) : Prop :=
  ∃ (r : Request) (rest : List Stimulus), s.pending = .op r :: rest ∧ decode s.dec.st s.dec.csum r = .error e

theorem step_of_asksOversize (h : s.asksOversize) : step s = .refused .encodeOversize := by
  obtain ⟨c, p, rest, hlen, hp | hp⟩ := h
  · exact (step_encLegacy hp).trans (encRequest_oversize hlen)
  · exact (step_encStart_eq hp).trans (encRequest_oversize hlen)

theorem step_of_presentsUndecodable {e : DecodeError} (h : s.presentsUndecodable e) :
    step s = .refused (.undecodable e) := by
  obtain ⟨r, rest, hp, hd⟩ := h
  exact step_undecodable hp hd

theorem stepSerialiser_total (h : s.enc.inv = true) : ∃ t, stepSerialiser s = .next t := by
  obtain ⟨e, o, htick, -⟩ := encTick_inv h
  exact ⟨_, stepSerialiser_ok htick⟩

theorem encRequest_total {p : List Byte} (again : Stimulus) (accept : State → State) (h : s.enc.inv = true)
    (hp : p.length ≤ Config.encPayloadMax) : ∃ t, encRequest again p accept s = .next t := by
  by_cases hidle : s.enc.st = .encIdle
  · exact ⟨_, encRequest_idle hp hidle⟩
  · obtain ⟨t, ht⟩ := stepSerialiser_total (s := { s with pending := again :: s.pending }) h
    exact ⟨t, (encRequest_busy hp hidle).trans ht⟩

theorem exec_decFeed_total (bytes : List Byte) (h : s.dec.inv = true) : ∃ t, exec (.decFeed bytes) s = .next t := by
  obtain ⟨d, outs, hfeed, -⟩ := decFeed_inv bytes h
  exact ⟨_, exec_decFeed_ok hfeed⟩

theorem exec_decStep_total (b : Byte) (h : s.dec.inv = true) : ∃ t, exec (.decStep b) s = .next t := by
  obtain ⟨d, o, hstep, -⟩ := decStep_inv b h
  exact ⟨_, by rw [exec_decStep, hstep]; rfl⟩

/-- The instruction a word decodes to answers where it was decoded, but for an oversize ENC.LEGACY. -/
theorem exec_decoded_total {r : Request} {i : Instr} (h : s.inv = true) (hd : decode s.dec.st s.dec.csum r = .ok i)
    (hsize : ∀ c p, r = .encLegacy c p → p.length ≤ Config.encPayloadMax) : ∃ t, exec i s = .next t := by
  obtain ⟨hdec, henc⟩ := s.inv_iff.mp h
  cases r
  case decByte b =>
    cases hd
    rw [exec_selectRow_instr]
    exact exec_decStep_total b hdec
  case frameRx bytes =>
    obtain ⟨d, n, c, p, k, -, -, rfl⟩ | ⟨d, f, cl, ch, nl, nh, p, k, -, -, rfl⟩ := decodeFrameRx_cases hd
    · exact exec_decFeed_total _ hdec
    · exact exec_decFeed_total _ hdec
  case frameTx bytes =>
    obtain ⟨c, p, hp, -, rfl⟩ := decodeFrameTx_cases hd
    rw [exec_frameTxRow]
    exact encRequest_total _ _ henc hp
  case encLegacy c p =>
    cases hd
    exact encRequest_total _ _ henc (hsize c p rfl)
  case decStep b => cases hd; exact exec_decStep_total b hdec
  case decFeed bytes => cases hd; exact exec_decFeed_total bytes hdec
  all_goals cases hd; exact ⟨_, rfl⟩

/-- R154: a step from a state that meets the invariant answers, or the host has made one of its two mistakes. -/
theorem step_total (h : s.inv = true) :
    (∃ t, step s = .next t) ∨ s.asksOversize ∨ ∃ e, s.presentsUndecodable e := by
  obtain ⟨-, henc⟩ := s.inv_iff.mp h
  cases hp : s.pending with
  | nil => exact .inl (step_waiting hp ▸ stepSerialiser_total henc)
  | cons first rest =>
    cases first with
    | op r =>
      cases hd : decode s.dec.st s.dec.csum r with
      | error e => exact .inr (.inr ⟨e, r, rest, hp, hd⟩)
      | ok i =>
        by_cases hsize : ∀ c p, r = .encLegacy c p → p.length ≤ Config.encPayloadMax
        · exact .inl (step_op hp hd ▸ exec_decoded_total (s := { s with pending := rest }) h hd hsize)
        · simp only [not_forall, Nat.not_le] at hsize
          obtain ⟨c, p, rfl, hlen⟩ := hsize
          exact .inr (.inl ⟨c, p, rest, hlen, .inl hp⟩)
    | rst b => exact .inl ⟨_, step_rst hp⟩
    | encStart c p =>
      by_cases hlen : p.length ≤ Config.encPayloadMax
      · exact .inl (step_encStart_eq hp ▸ encRequest_total (s := { s with pending := rest }) _ _ henc hlen)
      · exact .inr (.inl ⟨c, p, rest, Nat.lt_of_not_le hlen, .inr hp⟩)
    | encTick => exact .inl (step_encTick hp ▸ stepSerialiser_total (s := { s with pending := rest }) henc)

end total

/-! ### The obligations -/

/-- Settles O57: a chunk and a reset both keep the listing canonical. -/
theorem stepKeepsCanonicalBuffer : Obligations.StepKeepsCanonicalBuffer := fun _ _ hwf h =>
  (step_effect h).keeps_canonicalBuffer hwf

/-- Settles O59: agent by agent, over what a step can do to each. -/
theorem stepKeepsInvariant : Obligations.StepKeepsInvariant := by
  intro s t hinv h
  obtain ⟨hdec, henc⟩ := s.inv_iff.mp hinv
  exact t.inv_iff.mpr ⟨(step_effect h).keeps_dec_inv hdec, (step_effect h).keeps_enc_inv henc⟩

/-- Settles O58: the reset state, by evaluation. -/
theorem resetMeetsInvariant : Obligations.ResetMeetsInvariant := rfl

/-- Settles O60: the three ways a step can go exclude each other by their outcomes. -/
theorem nothingIsStuck : Obligations.NothingIsStuck := by
  intro s hinv
  rcases step_total hinv with ⟨t, ht⟩ | hover | ⟨e, hund⟩
  · refine ⟨?_, ⟨?_, step_of_asksOversize⟩, fun e => ⟨?_, step_of_presentsUndecodable⟩, ?_⟩ <;> simp [ht]
  · have hstep := step_of_asksOversize hover
    refine ⟨?_, ⟨fun _ => hover, step_of_asksOversize⟩, fun e => ⟨?_, step_of_presentsUndecodable⟩, ?_⟩ <;> simp [hstep]
  · have hstep := step_of_presentsUndecodable hund
    refine ⟨by simp [hstep], ⟨by simp [hstep], step_of_asksOversize⟩,
      fun e' => ⟨fun h => ?_, step_of_presentsUndecodable⟩, by simp [hstep]⟩
    rw [hstep] at h
    cases h
    exact hund

/-- Settles O53: what such an operation answers is a Decoder State and outputs. -/
theorem decoderTouchesOnlyItsOwn : Obligations.DecoderTouchesOnlyItsOwn := by
  intro i s t hi h
  obtain ⟨d, outs, hlocal, -⟩ := exec_decOp_cases hi h
  rw [hlocal s rfl] at h
  cases h
  exact ⟨outs, rfl⟩

/-- Settles O54: operation class by operation class. -/
theorem otherOperationsTouchOnlyTheirOwn : Obligations.OtherOperationsTouchOnlyTheirOwn := by
  intro i s t h
  refine ⟨fun hj => ?_, fun hf => ?_, fun hx => ?_, fun hc => ?_⟩
  · obtain ⟨e, outs, waits, hlocal, hidle⟩ := exec_encOp_cases hj h
    rw [hlocal s rfl] at h
    cases h
    refine ⟨⟨outs, rfl⟩, fun hst => ?_⟩
    obtain ⟨rfl, henc⟩ := hidle hst
    exact ⟨rfl, henc⟩
  · cases i <;> cases hf <;> cases h <;> exact ⟨_, rfl⟩
  · rcases hx with rfl | ⟨b, rfl⟩ <;> cases h <;> rfl
  · rcases hc with rfl | ⟨b, rfl⟩ <;> cases h <;> rfl

/-- Settles O55: each operation answers the same from the state the other has left. -/
theorem agentsCommute : Obligations.AgentsCommute := by
  intro i j s t u hi hj ht hu
  obtain ⟨d, outs, hdec, -⟩ := exec_decOp_cases hi ht
  obtain ⟨e, bytes, waits, henc, -⟩ := exec_encOp_cases hj hu
  rw [hdec s rfl] at ht
  rw [henc s rfl] at hu
  cases ht
  cases hu
  exact ⟨_, henc _ rfl, hdec _ rfl⟩

/-- Settles O56: the three output fields of a step's effect. -/
theorem outputsOnlyGrow : Obligations.OutputsOnlyGrow := by
  intro s t h
  obtain ⟨-, -, hdout, heout, hres⟩ := step_effect h
  exact ⟨hdout, heout, hres⟩

/-- Settles O3: the stimulus is the two resets one after the other. -/
theorem resetWinsOverByte : Obligations.ResetWinsOverByte := by
  intro s b rest h
  rw [step_rst h, execAll_cons_next (exec_decReset _), execAll_singleton]
  rfl

/-- Settles O4: with nothing presented only the serialiser can step. -/
theorem waitingChangesNothing : Obligations.WaitingChangesNothing := by
  intro s hp
  rw [step_waiting hp]
  refine ⟨stepSerialiser_idle, fun t h => ?_⟩
  obtain ⟨e, o, -, rfl⟩ := stepSerialiser_cases h
  exact ⟨rfl, rfl⟩

end Sys2Proof.Machine
end
